-- ==== Sys2Proof/Word.lean ====
section
/-! DEFINITION. The words of the block: bytes, 16-bit fields, and the small records of bits that operands are made of
(a colour, a nametable entry already split). -/

namespace Sys2Proof

/-- A byte of video memory, or an 8-bit channel. -/
abbrev Byte := BitVec 8

/-- A 16-bit field of video memory. -/
abbrev Word := BitVec 16

/-- R33, R93: a palette colour, three channels of 3 bits. -/
structure Color where
  r3 : BitVec 3
  g3 : BitVec 3
  b3 : BitVec 3
deriving DecidableEq, Repr, Inhabited

/-- R91: a nametable entry or sprite pattern reference, split into its fields. -/
structure NtEntry where
  tile : BitVec 11
  hflip : BitVec 1
  vflip : BitVec 1
  palrow : BitVec 2
  prio : BitVec 1
deriving DecidableEq, Repr, Inhabited

end Sys2Proof
end

