-- ==== Sys2Proof/Syntax.lean ====
section
/-! DEFINITION. The operations of the block, one constructor per row of spec/opcode_table.json (R107). The block
executes no instructions; its operations stand in their place (00_scope.md, section 1). -/

namespace Sys2Proof

/-- R140: the two forms of `PATDEC`'s tile operand: the 16-bit entry, or (`PATDECF`) the entry already split. -/
inductive PatRef where
  | entry (w : Word)
  | fields (n : NtEntry)
deriving DecidableEq, Repr

/-- R107: the 22 operations, with the operands their rules list. Positions are signed integers (R9), every other
operand is an unsigned field of the width the table gives it. -/
inductive Instr where
  /-- op 0, R218 -/
  | clear
  /-- op 1, R219 -/
  | dispgate
  /-- op 2, R220 -/
  | backdrop
  /-- op 3, R221 -/
  | planegate
  /-- op 4, R222 -/
  | configcheck
  /-- op 5, R223 -/
  | scrollfetch (line : Byte)
  /-- op 6, R224 -/
  | planeb (line : Byte)
  /-- op 7, R225 -/
  | winsel (line : Byte)
  /-- op 8, R226 and R208 -/
  | sprites (line : Byte)
  /-- op 9, R227 -/
  | done
  /-- op 16, R130 -/
  | expand (v3 : BitVec 3)
  /-- op 17, R131 -/
  | draw (x : Int) (color : Color) (prio : BitVec 1)
  /-- op 18, R140 and R141 -/
  | patdec (x : Int) (ref : PatRef) (subrow : BitVec 3)
  /-- op 19, R150 -/
  | rowrun (x : Int) (addr : Word) (ncols : Nat) (subrow : BitVec 3)
  /-- op 20, R156 -/
  | plane (line : Byte) (base : Word) (hscroll : BitVec 10) (vscroll : BitVec 10)
  /-- op 21, R170 -/
  | window (line : Byte)
  /-- op 22, R175 -/
  | hsfetch (line : Byte)
  /-- op 23, R185 -/
  | sprtrav
  /-- op 24, R195 -/
  | sprdecode (i : BitVec 7)
  /-- op 25, R198 -/
  | sprplan (line : Byte)
  /-- op 26, R204 -/
  | sprdraw (line : Byte)
  /-- op 31, R215 -/
  | render (line : Byte)
deriving DecidableEq, Repr

/-- R107, column 'kind': who issues an operation. -/
inductive OpKind where
  | stage
  | call
  | request
deriving DecidableEq, Repr

/-- The kind of each operation, as R107 lists it. -/
def Instr.kind : Instr → OpKind
  | .clear | .dispgate | .backdrop | .planegate | .configcheck => .stage
  | .scrollfetch _ | .planeb _ | .winsel _ | .sprites _ | .done => .stage
  | .expand _ | .draw _ _ _ | .patdec _ _ _ | .rowrun _ _ _ _ | .plane _ _ _ _ => .call
  | .window _ | .hsfetch _ | .sprtrav | .sprdecode _ | .sprplan _ | .sprdraw _ => .call
  | .render _ => .request

end Sys2Proof
end

