-- ==== Sys2Proof/Decode.lean ====
section
/-! DEFINITION. The decoder of an operation's bytes, total on any bytes, and the encoder beside it.
R107 gives each operation a 5-bit code; the spec gives the operands no encoding, so the operand bytes are the model's
own (log 1, log 2): byte 0 holds the code in bits 4:0; operands follow in the order the rules list them (R115), fields
of more than 8 bits as two bytes, the more significant first (the byte order of R63); a screen position as the 9-bit
number `x + 32`; a colour as the packed 9-bit number of R93. Bits outside the fields are ignored. -/

namespace Sys2Proof

/-- Why bytes are no operation. -/
inductive DecodeError where
  /-- R107: codes 10 to 15 and 27 to 30 are unused. -/
  | unusedCode (op : BitVec 5)
  /-- The bytes end before the operation's operands do. -/
  | truncated
deriving DecidableEq, Repr

/-- R10: `field(word, start, width)`. -/
def field {w : Nat} (v : BitVec w) (start width : Nat) : BitVec width := v.extractLsb' start width

/-- Two bytes as one 16-bit number, the first the more significant. -/
def word16 (hi lo : Byte) : Word := hi ++ lo

/-- The more significant byte of a 16-bit number. -/
def hiByte (w : Word) : Byte := field w 8 8

/-- The less significant byte of a 16-bit number. -/
def loByte (w : Word) : Byte := field w 0 8

/-- R91: the fields of a 16-bit nametable entry, `pccvhttttttttttt`. -/
def NtEntry.ofWord (w : Word) : NtEntry :=
  { tile := field w 0 11, hflip := field w 11 1, vflip := field w 12 1, palrow := field w 13 2, prio := field w 15 1 }

/-- R91: the 16-bit entry with these fields. -/
def NtEntry.toWord (n : NtEntry) : Word := n.prio ++ n.palrow ++ n.vflip ++ n.hflip ++ n.tile

/-- R93, `PAL_PACK`: the packed form `b3 << 6 or g3 << 3 or r3`. -/
def Color.pack (c : Color) : BitVec 9 := c.b3 ++ c.g3 ++ c.r3

/-- R93: the colour of a packed 9-bit number. -/
def Color.unpack (c9 : BitVec 9) : Color := { r3 := field c9 0 3, g3 := field c9 3 3, b3 := field c9 6 3 }

/-- Log 2: a screen position from its two bytes, `x + 32` in 9 bits. -/
def decodeX (hi lo : Byte) : Int := ((field (word16 hi lo) 0 9).toNat : Int) - 32

/-- Log 2: the 16-bit number that holds a screen position. -/
def encodeX (x : Int) : Word := BitVec.ofInt 16 (x + 32)

/-- `PATDEC`'s tile operand: bit 3 of the last byte selects the field form of R140. -/
def decodeRef (w : Word) (last : Byte) : PatRef :=
  if field last 3 1 = 1#1 then .fields (NtEntry.ofWord w) else .entry w

/-- The operands of operation `op`, from the bytes after the code. R107 gives the codes. -/
def decodeOperands (op : BitVec 5) (bs : List Byte) : Except DecodeError (Instr × List Byte) :=
  match op.toNat, bs with
  | 0, r => .ok (.clear, r)
  | 1, r => .ok (.dispgate, r)
  | 2, r => .ok (.backdrop, r)
  | 3, r => .ok (.planegate, r)
  | 4, r => .ok (.configcheck, r)
  | 5, l :: r => .ok (.scrollfetch l, r)
  | 6, l :: r => .ok (.planeb l, r)
  | 7, l :: r => .ok (.winsel l, r)
  | 8, l :: r => .ok (.sprites l, r)
  | 9, r => .ok (.done, r)
  | 16, v :: r => .ok (.expand (field v 0 3), r)
  | 17, x1 :: x0 :: c1 :: c0 :: p :: r =>
      .ok (.draw (decodeX x1 x0) (Color.unpack (field (word16 c1 c0) 0 9)) (field p 0 1), r)
  | 18, x1 :: x0 :: e1 :: e0 :: s :: r => .ok (.patdec (decodeX x1 x0) (decodeRef (word16 e1 e0) s) (field s 0 3), r)
  | 19, x1 :: x0 :: a1 :: a0 :: n :: s :: r =>
      .ok (.rowrun (decodeX x1 x0) (word16 a1 a0) (field n 0 6).toNat (field s 0 3), r)
  | 20, l :: b1 :: b0 :: h1 :: h0 :: v1 :: v0 :: r =>
      .ok (.plane l (word16 b1 b0) (field (word16 h1 h0) 0 10) (field (word16 v1 v0) 0 10), r)
  | 21, l :: r => .ok (.window l, r)
  | 22, l :: r => .ok (.hsfetch l, r)
  | 23, r => .ok (.sprtrav, r)
  | 24, i :: r => .ok (.sprdecode (field i 0 7), r)
  | 25, l :: r => .ok (.sprplan l, r)
  | 26, l :: r => .ok (.sprdraw l, r)
  | 31, l :: r => .ok (.render l, r)
  | n, _ =>
      if (10 ≤ n ∧ n ≤ 15) ∨ (27 ≤ n ∧ n ≤ 30) then .error (.unusedCode op) else .error .truncated

/-- One operation from the front of a list of bytes, with the bytes that are left. -/
def decode : List Byte → Except DecodeError (Instr × List Byte)
  | [] => .error .truncated
  | b :: bs => decodeOperands (field b 0 5) bs

/-- R107: the 5-bit code of each operation. -/
def Instr.code : Instr → BitVec 5
  | .clear => 0 | .dispgate => 1 | .backdrop => 2 | .planegate => 3 | .configcheck => 4
  | .scrollfetch _ => 5 | .planeb _ => 6 | .winsel _ => 7 | .sprites _ => 8 | .done => 9
  | .expand _ => 16 | .draw _ _ _ => 17 | .patdec _ _ _ => 18 | .rowrun _ _ _ _ => 19 | .plane _ _ _ _ => 20
  | .window _ => 21 | .hsfetch _ => 22 | .sprtrav => 23 | .sprdecode _ => 24 | .sprplan _ => 25 | .sprdraw _ => 26
  | .render _ => 31

/-- A 16-bit number as two bytes, the more significant first. -/
def bytes16 (w : Word) : List Byte := [hiByte w, loByte w]

/-- The operand bytes of each operation. -/
def Instr.operandBytes : Instr → List Byte
  | .clear | .dispgate | .backdrop | .planegate | .configcheck | .done | .sprtrav => []
  | .scrollfetch line | .planeb line | .winsel line | .sprites line => [line]
  | .expand v3 => [v3.setWidth 8]
  | .draw x color prio => bytes16 (encodeX x) ++ bytes16 (color.pack.setWidth 16) ++ [prio.setWidth 8]
  | .patdec x (.entry w) subrow => bytes16 (encodeX x) ++ bytes16 w ++ [subrow.setWidth 8]
  | .patdec x (.fields n) subrow => bytes16 (encodeX x) ++ bytes16 n.toWord ++ [subrow.setWidth 8 ||| 8#8]
  | .rowrun x addr ncols subrow =>
      bytes16 (encodeX x) ++ bytes16 addr ++ [BitVec.ofNat 8 ncols, subrow.setWidth 8]
  | .plane line base hscroll vscroll =>
      [line] ++ bytes16 base ++ bytes16 (hscroll.setWidth 16) ++ bytes16 (vscroll.setWidth 16)
  | .window line | .hsfetch line | .sprplan line | .sprdraw line | .render line => [line]
  | .sprdecode i => [i.setWidth 8]

/-- The bytes of an operation: its code, then its operands. -/
def encode (i : Instr) : List Byte := i.code.setWidth 8 :: i.operandBytes

/-- The longest operation, `PLANE`, has 8 bytes. -/
def maxOperationBytes : Nat := 8

/-- The first `n` bytes of the number `w`, least significant first (the numbering of spec/opcode_table.json). -/
def bytesOf : Nat → Nat → List Byte
  | 0, _ => []
  | n + 1, w => BitVec.ofNat 8 (w % 256) :: bytesOf n (w / 256)

/-- The bytes of an operation whose table bits are `w`: `nbits` of them, and zeros after them. -/
def tableBytes (nbits w : Nat) : List Byte :=
  bytesOf ((nbits + 7) / 8) (w % 2 ^ nbits) ++ List.replicate maxOperationBytes 0#8

/-- What the decoder reads from an operation whose bits are `w`, numbered as spec/opcode_table.json numbers them. -/
def decodeTableWord (nbits w : Nat) : Option Instr :=
  match decode (tableBytes nbits w) with
  | .ok (i, _) => some i
  | .error _ => none

end Sys2Proof
end

