-- ==== Sys2Proof/Config.lean ====
section
/-! DEFINITION. Config: the fixed numbers of rule R4 and R5 and the open parameters of rule R6 at their defaults.
The free value (what the transient storage holds once a render has ended) stands in `Sys2Proof/Config/Free.lean`,
after the type it has. -/

namespace Sys2Proof.Config

/-- R4 `SCREEN_W`: pixels in the output row. -/
def screenW : Nat := 320
/-- R4 `VISIBLE_LINES`: valid line indices are 0 to 223. -/
def visibleLines : Nat := 224
/-- R4 `PAD`: cells of padding on each side of the line buffer. -/
def pad : Nat := 32
/-- R4 `BUF_W`: cells in the line buffer, `SCREEN_W + 2 * PAD`. -/
def bufW : Nat := 384
/-- R4 `TILE_BYTES`: bytes of one tile pattern. -/
def tileBytes : Nat := 32
/-- R4 `TILE_ROW_BYTES`: bytes of one pattern row. -/
def tileRowBytes : Nat := 4
/-- R4 `NT_ENTRY_BYTES`: bytes of one nametable entry. -/
def ntEntryBytes : Nat := 2
/-- R4 `PAL_SIZE`: colours in palette memory, 4 rows of 16. -/
def palSize : Nat := 64
/-- R4 `SPR_ENTRY_BYTES`: bytes of one sprite entry. -/
def sprEntryBytes : Nat := 8
/-- R4 `SAT_ENTRIES`: entries of the sprite table. It bounds no index: a link past it is followed as it stands (R188). -/
def satEntries : Nat := 64
/-- R4 `MAX_CHAIN`: most entries the traversal records. -/
def maxChain : Nat := 64
/-- R4 `MAX_SPR_LINE`: most visible sprites per line. -/
def maxSprLine : Nat := 16
/-- R4 `MAX_SPR_PIX`: most sprite pixels per line. -/
def maxSprPix : Nat := 256
/-- R4 `WIN_COLS`: columns the window plane always renders. -/
def winCols : Nat := 40
/-- R4 `HS_SLOT_BYTES`: bytes of one horizontal scroll slot. -/
def hsSlotBytes : Nat := 4
/-- R4 `HS_MASK` keeps the low 10 bits of a scroll field. -/
abbrev hsBits : Nat := 10
/-- R5 `VRAM_SIZE`: bytes of video memory; every address is taken modulo this. -/
def vramSize : Nat := 65536

/-- R6 `WIN_STRIDE`, default 128 bytes (the spec's D12; log 10). -/
def winStride : Nat := 128

/-- The two orders a 16-bit field could have in video memory. -/
inductive ByteOrder where
  | bigEndian
  | littleEndian
deriving DecidableEq, Repr

/-- R6 `BYTE_ORDER`, default big-endian (R63, the spec's D4; log 10). -/
def byteOrder : ByteOrder := .bigEndian

/-- R6 `SPR_LAYOUT`: where the fields of a sprite entry stand. Offsets are in bytes, `…Bit` is a field's lowest bit. -/
structure SprLayout where
  yOffset : Nat
  sizeOffset : Nat
  hCodeBit : Nat
  wCodeBit : Nat
  linkOffset : Nat
  refOffset : Nat
  xOffset : Nat
deriving DecidableEq, Repr

/-- The default layout of R96 (the spec's D8; log 10). -/
def sprLayout : SprLayout :=
  { yOffset := 0, sizeOffset := 2, hCodeBit := 0, wCodeBit := 2, linkOffset := 3, refOffset := 4, xOffset := 6 }

/-- R101: the bias of a sprite's `y` and `x`. -/
def sprBias : Nat := 128

end Sys2Proof.Config
end

