-- ==== Sys2Proof/Machine/State.lean ====
section
/-! DEFINITION. The state of the block as plain data: the snapshot of the collaborator's stores (10_state.md, sections
2 and 3), the transient working storage of one render (section 4), the stage, the response, and the model's own fields
(log 3, 5, 11). -/

namespace Sys2Proof.Machine

/-! ### The external state -/

/-- R30: video memory, by the bytes that are not what an unlisted address reads as (0, log 8): strictly rising
addresses below 65536, no byte 0. `Memory.wf` (Machine/Ops.lean) says so. -/
abbrev Memory := List Host.Cell

/-- R33: palette memory, `PAL_SIZE` colours. -/
structure Palette where
  colors : List Color
  full : colors.length = Config.palSize
deriving DecidableEq, Repr

/-- R36 to R48: the register file, by its named fields (log 9). -/
structure RegFields where
  /-- R37 -/
  dispDisable : BitVec 1
  /-- R38 -/
  planeEn : BitVec 1
  /-- R39 -/
  baseA : Word
  /-- R39 -/
  baseB : Word
  /-- R39 -/
  baseW : Word
  /-- R40 -/
  satBase : Word
  /-- R41 -/
  hsBase : Word
  /-- R42: in units of 8 lines; 0 means no threshold is configured. -/
  winVpos : BitVec 5
  /-- R42: 1 is the down-trigger, 0 the up-trigger. -/
  winDown : BitVec 1
  /-- R43: never read by the block. -/
  winHpos : BitVec 5
  /-- R43: never read by the block. -/
  winRight : BitVec 1
  /-- R44 -/
  hsMode : BitVec 2
  /-- R45 -/
  vsColumn : BitVec 1
  /-- R46 -/
  planeWCode : BitVec 2
  /-- R46 -/
  planeHCode : BitVec 2
  /-- R47 -/
  backdrop : BitVec 6
  /-- R48 -/
  interlace : BitVec 2
deriving DecidableEq, Repr

/-- R35: the two scrollable planes. -/
inductive ScrollPlane where
  | a
  | b
deriving DecidableEq, Repr

/-- R21, R73: everything the block reads and does not own, as it is while a render runs. -/
structure Snapshot where
  /-- R30 -/
  vram : Memory
  /-- R33 -/
  pal : Palette
  /-- R35 -/
  vsA : BitVec 10
  /-- R35 -/
  vsB : BitVec 10
  /-- R36 -/
  regf : RegFields
deriving DecidableEq, Repr

/-! ### The transient working storage -/

/-- R51, R99 `F-CELL`: a pixel cell. -/
structure PixelCell where
  r : Byte
  g : Byte
  b : Byte
  prio : Byte
deriving DecidableEq, Repr, Inhabited

/-- R50: the line buffer, `BUF_W` cells; cell `x + 32` of the list is `LB[x]`. -/
structure LineBuf where
  cells : List PixelCell
  full : cells.length = Config.bufW
deriving DecidableEq, Repr

/-- R50: a line buffer with the same cell everywhere. -/
def LineBuf.fill (c : PixelCell) : LineBuf := { cells := List.replicate Config.bufW c, full := List.length_replicate }

/-- R55: an element of the draw plan: a sprite table index and how many of its cell columns are drawn. -/
structure PlanEntry where
  index : BitVec 7
  cells : Nat
deriving DecidableEq, Repr, Inhabited

/-- R50 to R56: the transient storage of one render, and the operand of the request it serves. -/
structure Work where
  /-- R50 `LB` -/
  lb : LineBuf
  /-- R53 `CHAIN`; `CHAIN_LEN` is its length (log 16). -/
  chain : List (BitVec 7)
  /-- R54 `NSPR` -/
  nspr : Nat
  /-- R54 `NPIX` -/
  npix : Nat
  /-- R55 `PLAN` -/
  plan : List PlanEntry
  /-- R56 `HSA` -/
  hsA : BitVec 10
  /-- R56 `HSB` -/
  hsB : BitVec 10
  /-- R56 `VSA` -/
  vsA : BitVec 10
  /-- R56 `VSB` -/
  vsB : BitVec 10
  /-- R215, R97: the line of the render in progress. -/
  line : Byte
deriving DecidableEq, Repr

/-- The transient storage right after reset: all zero (log 6; R271 leaves it unspecified). -/
def Work.reset : Work :=
  { lb := LineBuf.fill { r := 0, g := 0, b := 0, prio := 0 }, chain := [], nspr := 0, npix := 0, plan := [],
    hsA := 0, hsB := 0, vsA := 0, vsB := 0, line := 0 }

/-- R57, R217: the stages of the orchestrator. -/
inductive Stage where
  | clear
  | dispGate
  | backdrop
  | planeGate
  | configCheck
  | scrollFetch
  | planeB
  | winOrPlaneA
  | sprites
  | done
deriving DecidableEq, Repr

/-! ### Results -/

/-- R241: the four causes of a fault. -/
inductive Cause where
  /-- cause 1 -/
  | interlace
  /-- cause 2 -/
  | columnScroll
  /-- cause 3 -/
  | widthCode
  /-- cause 4 -/
  | heightCode
deriving DecidableEq, Repr

/-- R99 `F-PIX`: an output pixel, a cell without its priority. -/
structure Pixel where
  r : Byte
  g : Byte
  b : Byte
deriving DecidableEq, Repr

/-- R98: the row of a response, `SCREEN_W` pixels, the leftmost first. -/
structure Row where
  pixels : List Pixel
  full : pixels.length = Config.screenW
deriving DecidableEq, Repr

/-- R58, R98 `F-RSP`: the response to a request; a fault carries its cause and no row (R246). -/
inductive Response where
  | row (pixels : Row)
  | fault (cause : Cause)
deriving DecidableEq, Repr

/-- R195: the decoded fields of a sprite entry; `y` and `x` without their bias, `sh` and `sw` in cells. -/
structure SprEntry where
  y : Int
  sh : Nat
  sw : Nat
  link : BitVec 7
  ref : Word
  x : Int
deriving DecidableEq, Repr

/-- What a called operation returns to its caller (log 3): `EXPAND` (R130), `HSFETCH` (R175), `SPRDECODE` (R195). -/
inductive CallResult where
  | channel (v8 : Byte)
  | scroll (hsA hsB : BitVec 10)
  | entry (d : SprEntry)
deriving DecidableEq, Repr

/-! ### The outside -/

/-- R36 to R48: a new value for one named field of the register file. -/
inductive FieldWrite where
  | dispDisable (v : BitVec 1)
  | planeEn (v : BitVec 1)
  | baseA (v : Word)
  | baseB (v : Word)
  | baseW (v : Word)
  | satBase (v : Word)
  | hsBase (v : Word)
  | winVpos (v : BitVec 5)
  | winDown (v : BitVec 1)
  | winHpos (v : BitVec 5)
  | winRight (v : BitVec 1)
  | hsMode (v : BitVec 2)
  | vsColumn (v : BitVec 1)
  | planeWCode (v : BitVec 2)
  | planeHCode (v : BitVec 2)
  | backdrop (v : BitVec 6)
  | interlace (v : BitVec 2)
deriving DecidableEq, Repr

/-- R74, R273: a write of the collaborator. -/
inductive ExtWrite where
  /-- a byte of video memory (R30) -/
  | vram (addr : Word) (v : Byte)
  /-- a palette entry (R33) -/
  | pal (i : BitVec 6) (c : Color)
  /-- a vertical scroll value; of a wider word the low 10 bits count (R71) -/
  | vscroll (p : ScrollPlane) (v : Word)
  /-- a named register field (R36) -/
  | field (f : FieldWrite)
  /-- register byte `n`, bound to the fields by the default `REGMAP` (R49) -/
  | reg (n : BitVec 5) (v : Byte)
deriving DecidableEq, Repr

/-- What the outside does: a request of the caller (R97 `F-REQ`) or a write of the collaborator (log 11). -/
inductive Input where
  | request (line : Byte)
  | write (w : ExtWrite)
deriving DecidableEq, Repr

/-! ### Stops -/

/-- The machine stops with a fault of the MODEL. The block's two faults (R240) are no stops: they are responses. -/
inductive Fault where
  /-- Raised by a DRAW at a position outside -32..351, where the line buffer has no cell (R50). Safe: R52 and R209 say
  that no render makes such a draw (log 13). -/
  | cellOutsideBuffer
deriving DecidableEq, Repr

/-- The spec gives no meaning. -/
inductive Refusal where
  /-- Raised only by an arm of `exec` whose operation has no meaning yet. Safe. -/
  | notModelled (mnemonic : String)
  /-- Raised by RENDER, and by every operation with a `line` operand, at a line of 224 or more (R113, R216). Safe. -/
  | lineOutOfRange
  /-- Raised by RENDER, and by a request that arrives, while a render is in progress (R276). Safe. -/
  | requestDuringRender
  /-- Raised by a write of the collaborator that arrives while a render is in progress (R275). Safe. -/
  | writeDuringRender
  /-- Raised by PLANE (and the stages that call it) when a plane size code is 2: `tiles(2)` does not exist (R100). Safe:
  in a render CONFIGCHECK has faulted before (R155; log 14). -/
  | reservedPlaneSize
  /-- Raised by the fetch of an operation whose code is 10 to 15 or 27 to 30 (R107). Safe. -/
  | unusedOperationCode (op : BitVec 5)
  /-- Raised by the fetch of an operation whose operand bytes are missing (log 1). Safe. -/
  | truncatedOperation
deriving DecidableEq, Repr

/-! ### The state -/

/-- The whole state. -/
structure State where
  /-- R21: the snapshot of the collaborator's stores. -/
  ext : Snapshot
  /-- R50 to R56: the transient storage. -/
  work : Work
  /-- R57 `STAGE`: the stage to run next; none between renders. -/
  stage : Option Stage
  /-- R58: the response to the last request; none before the first (log 19). -/
  response : Option Response
  /-- Log 3, the model's own: the bytes of a called operation to run on its own; empty when there is none. -/
  call : List Byte
  /-- Log 3, the model's own: what the last called operation returned. -/
  ret : Option CallResult
  /-- Log 11, the model's own: what the outside does next, in order. -/
  inputs : List Input
  /-- Log 5, the model's own: how many free values have been drawn. -/
  freeCount : Nat
deriving DecidableEq, Repr

/-- R272 leaves the collaborator's stores open after reset; the model names zero everywhere (log 7, log 8). -/
def Snapshot.reset : Snapshot :=
  { vram := [],
    pal := { colors := List.replicate Config.palSize { r3 := 0, g3 := 0, b3 := 0 }, full := List.length_replicate },
    vsA := 0, vsB := 0,
    regf :=
      { dispDisable := 0, planeEn := 0, baseA := 0, baseB := 0, baseW := 0, satBase := 0, hsBase := 0, winVpos := 0,
        winDown := 0, winHpos := 0, winRight := 0, hsMode := 0, vsColumn := 0, planeWCode := 0, planeHCode := 0,
        backdrop := 0, interlace := 0 } }

/-- R270: after reset the block is idle, no render is in progress, nothing has been answered. -/
def State.reset : State :=
  { ext := Snapshot.reset, work := Work.reset, stage := none, response := none, call := [], ret := none, inputs := [],
    freeCount := 0 }

end Sys2Proof.Machine
end

