-- ==== Sys2Proof/Config/Free.lean ====
section
/-! DEFINITION. The free values of the model (log 5): what the transient storage holds once a render has ended. R271
gives it no value outside a render and U14 of 93_implementation_defined.md allows any. Each constant has no body, so
nothing can be proved about a value; the first argument is the count of values drawn so far. -/

namespace Sys2Proof

/-- What cell `k` of the line buffer holds. -/
opaque Config.freeCell : Nat → Nat → Machine.PixelCell
/-- What the chain buffer holds. -/
opaque Config.freeChain : Nat → List (BitVec 7)
/-- What `NSPR` (0) and `NPIX` (1) hold. -/
opaque Config.freeCounter : Nat → Nat → Nat
/-- What the draw plan holds. -/
opaque Config.freePlan : Nat → List Machine.PlanEntry
/-- What `HSA` (0), `HSB` (1), `VSA` (2) and `VSB` (3) hold. -/
opaque Config.freeLatch : Nat → Nat → BitVec 10
/-- What the latched line holds. -/
opaque Config.freeLine : Nat → Byte

/-- The transient storage between two renders: free in every part. -/
def Config.freeWork (n : Nat) : Machine.Work :=
  { lb := { cells := (List.range Config.bufW).map (Config.freeCell n), full := by simp },
    chain := Config.freeChain n, nspr := Config.freeCounter n 0, npix := Config.freeCounter n 1,
    plan := Config.freePlan n, hsA := Config.freeLatch n 0, hsB := Config.freeLatch n 1, vsA := Config.freeLatch n 2,
    vsB := Config.freeLatch n 3, line := Config.freeLine n }

end Sys2Proof
end

