-- ==== Sys2Proof/Machine/Ops.lean ====
section
/-! DEFINITION. The named operations over memory, the line buffer and the state: the read primitives of 20_memory.md,
the cells of R50, the collaborator's writes, the update of each part of the state, and raising a fault (R246). -/

namespace Sys2Proof.Machine

/-! ### Sequencing -/

/-- `o`, then `f` on what it answers; a stop stays a stop. -/
def andThen {α β : Type} (o : Host.Outcome α Fault Refusal) (f : α → Host.Outcome β Fault Refusal) :
    Host.Outcome β Fault Refusal :=
  match o with
  | .next a => f a
  | .fault r => .fault r
  | .refused r => .refused r

/-! ### Video memory (R30, R61 to R63) -/

/-- The byte at an address; an unlisted one reads 0 (log 8). -/
def Memory.read : Memory → Nat → Byte
  | [], _ => 0#8
  | (k, b) :: m, a => if k = a then b else Memory.read m a

/-- Puts a byte at an address and keeps the canonical form: rising addresses, no byte 0. -/
def Memory.write : Memory → Nat → Byte → Memory
  | [], a, v => if v = 0#8 then [] else [(a, v)]
  | (k, b) :: m, a, v =>
    if a < k then (if v = 0#8 then (k, b) :: m else (a, v) :: (k, b) :: m)
    else if a = k then (if v = 0#8 then m else (a, v) :: m)
    else (k, b) :: Memory.write m a v

/-- Every address of `m` is at least `lo` and below 65536, they rise strictly, and no byte is 0. -/
def Memory.wfFrom : Nat → Memory → Bool
  | _, [] => true
  | lo, (k, b) :: m => decide (lo ≤ k ∧ k < Config.vramSize) && decide (b ≠ 0#8) && Memory.wfFrom (k + 1) m

/-- The canonical form of video memory. -/
def Memory.wf (m : Memory) : Bool := Memory.wfFrom 0 m

/-- R62 `MemRead(addr, 1)`: the address is reduced modulo 65536 at the read (R61). -/
def memRead1 (e : Snapshot) (addr : Nat) : Byte := e.vram.read (addr % Config.vramSize)

/-- R63 `MemRead(addr, 2)`: two byte reads, each reduced on its own, in the byte order of the configuration. -/
def memRead2 (e : Snapshot) (addr : Nat) : Word :=
  match Config.byteOrder with
  | .bigEndian => memRead1 e addr ++ memRead1 e (addr + 1)
  | .littleEndian => memRead1 e (addr + 1) ++ memRead1 e addr

/-! ### Palette and scroll store (R70, R71) -/

/-- R70 `PalRead(i)`. -/
def palRead (e : Snapshot) (i : BitVec 6) : Color := e.pal.colors.getD i.toNat default

/-- R71 `VsRead(p)`. -/
def vsRead (e : Snapshot) : ScrollPlane → BitVec 10
  | .a => e.vsA
  | .b => e.vsB

/-! ### The line buffer (R50, R51) -/

/-- R50: the positions that have a cell. -/
def inBuffer (x : Int) : Bool := decide (-32 ≤ x ∧ x ≤ 351)

/-- R12 `LB[x]`; none where there is no such cell. -/
def LineBuf.cell (lb : LineBuf) (x : Int) : Option PixelCell :=
  if inBuffer x then lb.cells[(x + 32).toNat]? else none

/-- R12 `LB[x] <- c`; nothing where there is no such cell. -/
def LineBuf.put (lb : LineBuf) (x : Int) (c : PixelCell) : LineBuf :=
  if inBuffer x then { cells := lb.cells.set (x + 32).toNat c, full := by simp [lb.full] } else lb

/-- R227: a cell without its priority. -/
def PixelCell.pixel (c : PixelCell) : Pixel := { r := c.r, g := c.g, b := c.b }

/-- R227: the visible cells `LB[0]` to `LB[319]`, colour only. -/
def LineBuf.row (lb : LineBuf) : Row :=
  { pixels := ((lb.cells.drop Config.pad).take Config.screenW).map PixelCell.pixel,
    full := by simp [lb.full, Config.pad, Config.screenW, Config.bufW] }

/-! ### Updates of the state, one part each -/

def State.setLb (s : State) (lb : LineBuf) : State := { s with work := { s.work with lb := lb } }

def State.setChain (s : State) (chain : List (BitVec 7)) : State := { s with work := { s.work with chain := chain } }

/-- R54, R55: the three results of the forward pass. -/
def State.setPlan (s : State) (nspr npix : Nat) (plan : List PlanEntry) : State :=
  { s with work := { s.work with nspr := nspr, npix := npix, plan := plan } }

/-- R56: the four latches. -/
def State.setLatches (s : State) (hsA hsB vsA vsB : BitVec 10) : State :=
  { s with work := { s.work with hsA := hsA, hsB := hsB, vsA := vsA, vsB := vsB } }

/-- R13 `stage <- S`. -/
def State.atStage (s : State) (st : Stage) : State := { s with stage := some st }

/-- R115, log 3: what a called operation returns. -/
def State.returns (s : State) (r : CallResult) : State := { s with ret := some r }

/-- R217: every render starts at Clear, with the request's line. -/
def State.enterRender (s : State) (line : Byte) : State :=
  { s with stage := some .clear, work := { s.work with line := line } }

/-- The end of a render: the response is delivered, `STAGE` has no value, and the transient storage is released; it
holds a free value from then on (R13 `return`, R50, R271; log 5). -/
def State.finish (s : State) (r : Response) : State :=
  { s with response := some r, stage := none, work := Config.freeWork s.freeCount, freeCount := s.freeCount + 1 }

/-- R13 `raise`, R246: TAKING A FAULT. The render ends at once, the response carries status and cause and no row, the
line buffer is dropped, nothing is saved, no external state changes. There is nothing to return from (R247): the block is
idle as after a row, and the next request starts at Clear. -/
def State.raise (s : State) (c : Cause) : State := s.finish (.fault c)

/-- R241: the status of a response. -/
def Response.status : Response → Nat
  | .row _ => 0
  | .fault .interlace => 1
  | .fault .columnScroll => 1
  | .fault .widthCode => 2
  | .fault .heightCode => 2

/-- R241: the cause of a response, 0 for OK. -/
def Response.cause : Response → Nat
  | .row _ => 0
  | .fault .interlace => 1
  | .fault .columnScroll => 2
  | .fault .widthCode => 3
  | .fault .heightCode => 4

/-- Runs a step of the line buffer on the state that holds it. -/
def onLb (s : State) (o : Host.Outcome LineBuf Fault Refusal) : Host.Outcome State Fault Refusal :=
  andThen o (fun lb => .next (s.setLb lb))

/-- R216: an operation with a `line` operand has a meaning for lines 0 to 223. -/
def onLine (line : Byte) (o : Host.Outcome State Fault Refusal) : Host.Outcome State Fault Refusal :=
  if line.toNat < Config.visibleLines then o else .refused .lineOutOfRange

/-! ### The collaborator's writes (R74, R273) -/

/-- A new value for one named register field. -/
def RegFields.write (f : RegFields) : FieldWrite → RegFields
  | .dispDisable v => { f with dispDisable := v }
  | .planeEn v => { f with planeEn := v }
  | .baseA v => { f with baseA := v }
  | .baseB v => { f with baseB := v }
  | .baseW v => { f with baseW := v }
  | .satBase v => { f with satBase := v }
  | .hsBase v => { f with hsBase := v }
  | .winVpos v => { f with winVpos := v }
  | .winDown v => { f with winDown := v }
  | .winHpos v => { f with winHpos := v }
  | .winRight v => { f with winRight := v }
  | .hsMode v => { f with hsMode := v }
  | .vsColumn v => { f with vsColumn := v }
  | .planeWCode v => { f with planeWCode := v }
  | .planeHCode v => { f with planeHCode := v }
  | .backdrop v => { f with backdrop := v }
  | .interlace v => { f with interlace := v }

/-- R49, the default `REGMAP`: what the fields become when register byte `n` is written. Bits and registers the table
does not name are never read (U12). -/
def RegFields.writeReg (f : RegFields) (n : BitVec 5) (v : Byte) : RegFields :=
  match n.toNat with
  | 0 => { f with dispDisable := v.extractLsb' 0 1 }
  | 1 => { f with planeEn := v.extractLsb' 6 1 }
  | 2 => { f with baseA := (v.extractLsb' 3 3).setWidth 16 <<< 13 }
  | 3 => { f with baseW := (v.extractLsb' 1 5).setWidth 16 <<< 11 }
  | 4 => { f with baseB := (v.extractLsb' 0 3).setWidth 16 <<< 13 }
  | 5 => { f with satBase := (v.extractLsb' 0 7).setWidth 16 <<< 9 }
  | 7 => { f with backdrop := v.extractLsb' 0 6 }
  | 11 => { f with hsMode := v.extractLsb' 0 2, vsColumn := v.extractLsb' 2 1 }
  | 12 => { f with interlace := v.extractLsb' 1 2 }
  | 13 => { f with hsBase := (v.extractLsb' 0 6).setWidth 16 <<< 10 }
  | 16 => { f with planeWCode := v.extractLsb' 0 2, planeHCode := v.extractLsb' 4 2 }
  | 17 => { f with winHpos := v.extractLsb' 0 5, winRight := v.extractLsb' 7 1 }
  | 18 => { f with winVpos := v.extractLsb' 0 5, winDown := v.extractLsb' 7 1 }
  | _ => f

/-- A palette with one entry changed. -/
def Palette.write (p : Palette) (i : BitVec 6) (c : Color) : Palette :=
  { colors := p.colors.set i.toNat c, full := by simp [p.full] }

/-- One write of the collaborator. -/
def Snapshot.write (e : Snapshot) : ExtWrite → Snapshot
  | .vram addr v => { e with vram := e.vram.write addr.toNat v }
  | .pal i c => { e with pal := e.pal.write i c }
  | .vscroll .a v => { e with vsA := v.extractLsb' 0 10 }
  | .vscroll .b v => { e with vsB := v.extractLsb' 0 10 }
  | .field f => { e with regf := e.regf.write f }
  | .reg n v => { e with regf := e.regf.writeReg n v }

end Sys2Proof.Machine
end

