-- ==== Sys2Proof/Machine/Operands.lean ====
section
/-! DEFINITION. The operand forms: how the words the operations read are taken apart and how their addresses are
computed (30_encoding.md, R90 to R106; the effective addresses of 20_memory.md R80). -/

namespace Sys2Proof.Machine

/-- R11 `ceil8(a)`. -/
def ceil8 (a : Nat) : Nat := (a + 7) / 8

/-- R140: the fields of `PATDEC`'s tile operand, in either form. -/
def refFields : PatRef → NtEntry
  | .entry w => NtEntry.ofWord w
  | .fields n => n

/-- R104: the palette entry of colour `index` of row `palrow`, `palrow * 16 + index`. -/
def paletteIndex (palrow : BitVec 2) (index : BitVec 4) : BitVec 6 := BitVec.ofNat 6 (palrow.toNat * 16 + index.toNat)

/-- R103: the address of row `r` of a tile, `tile * 32 + r * 4`. -/
def patternRowAddr (tile : BitVec 11) (r : Nat) : Nat := tile.toNat * Config.tileBytes + r * Config.tileRowBytes

/-- R92: the two pixels of a pattern byte, the high nibble first. -/
def nibbles (b : Byte) : List (BitVec 4) := [field b 4 4, field b 0 4]

/-- R92, R141: the 8 pixels of pattern row `r` as they are stored, pixel 0 first. -/
def patternRow (e : Snapshot) (tile : BitVec 11) (r : Nat) : List (BitVec 4) :=
  let a := patternRowAddr tile r
  nibbles (memRead1 e a) ++ nibbles (memRead1 e (a + 1)) ++ nibbles (memRead1 e (a + 2)) ++ nibbles (memRead1 e (a + 3))

/-- R141 to R143: the pattern row that sub-row `subrow` of the screen shows, mirrored if `vflip`. -/
def flippedRow (n : NtEntry) (subrow : BitVec 3) : Nat := if n.vflip = 1#1 then 7 - subrow.toNat else subrow.toNat

/-- R141, R142: the 8 pixels as they appear on the screen, the leftmost first. -/
def patternPixels (e : Snapshot) (n : NtEntry) (subrow : BitVec 3) : List (BitVec 4) :=
  let pix := patternRow e n.tile (flippedRow n subrow)
  if n.hflip = 1#1 then pix.reverse else pix

/-- R100: a plane size code in tiles; `tiles(2)` does not exist. -/
def planeTiles (code : BitVec 2) : Option Nat :=
  match code.toNat with
  | 0 => some 32
  | 1 => some 64
  | 3 => some 128
  | _ => none

/-- R176: the slot of the scroll table a line uses in each mode. -/
def hsIndex (mode : BitVec 2) (line : Nat) : Nat :=
  match mode.toNat with
  | 0 => 0
  | 1 => line % 8
  | 2 => line - line % 8
  | _ => line

/-- R177: the address of a scroll slot. -/
def hsSlotAddr (e : Snapshot) (index : Nat) : Nat := e.regf.hsBase.toNat + Config.hsSlotBytes * index

/-- R102, R178: a 16-bit scroll field masked to 10 bits. -/
def hsField (w : Word) : BitVec 10 := field w 0 Config.hsBits

/-- R69: the address of a sprite table entry. -/
def sprEntryAddr (e : Snapshot) (i : BitVec 7) : Nat := e.regf.satBase.toNat + Config.sprEntryBytes * i.toNat

/-- R96, R105: the link field of a sprite entry. -/
def sprLink (e : Snapshot) (i : BitVec 7) : BitVec 7 :=
  field (memRead1 e (sprEntryAddr e i + Config.sprLayout.linkOffset)) 0 7

/-- R101: a biased position, the low 10 bits of its field minus 128. -/
def biased (w : Word) : Int := ((field w 0 10).toNat : Int) - Config.sprBias

/-- R100: a sprite size code in cells, `code + 1`. -/
def sprCells (code : BitVec 2) : Nat := code.toNat + 1

/-- R96: the fields of sprite table entry `i`. -/
def sprFields (e : Snapshot) (i : BitVec 7) : SprEntry :=
  let a := sprEntryAddr e i
  let size := memRead1 e (a + Config.sprLayout.sizeOffset)
  { y := biased (memRead2 e (a + Config.sprLayout.yOffset)),
    sh := sprCells (field size Config.sprLayout.hCodeBit 2),
    sw := sprCells (field size Config.sprLayout.wCodeBit 2),
    link := sprLink e i,
    ref := memRead2 e (a + Config.sprLayout.refOffset),
    x := biased (memRead2 e (a + Config.sprLayout.xOffset)) }

end Sys2Proof.Machine
end

