-- ==== Sys2Proof/Machine/Flags.lean ====
section
/-! DEFINITION. The conditions the operations test, and the two counters that are the block's only condition state
(R54): the fault tests of R222, the window selection of R225, the sprite tests of R196 and R200, the counts of R199 and
R201 and the stop test of R202. -/

namespace Sys2Proof.Machine

/-- R222, R245: the first of the four fault tests that fails. -/
def configFault (f : RegFields) : Option Cause :=
  if f.interlace ≠ 0#2 then some .interlace
  else if f.vsColumn = 1#1 then some .columnScroll
  else if f.planeWCode = 2#2 then some .widthCode
  else if f.planeHCode = 2#2 then some .heightCode
  else none

/-- R225 `WINSEL(line)`, R106: whether the window replaces plane A on the whole line. -/
def windowSelected (f : RegFields) (line : Nat) : Bool :=
  if f.winVpos = 0#5 then false
  else if f.winDown = 1#1 then decide (8 * f.winVpos.toNat ≤ line)
  else decide (line ≤ 8 * f.winVpos.toNat)

/-- R196: a sprite is visible on a line of its vertical extent. -/
def SprEntry.visible (d : SprEntry) (line : Nat) : Bool := decide (d.y ≤ (line : Int) ∧ (line : Int) < d.y + 8 * d.sh)

/-- R200: the horizontal clip. -/
def SprEntry.inSides (d : SprEntry) : Bool := decide (-8 * (d.sw : Int) < d.x ∧ d.x < Config.screenW)

/-- R201: the loop over a sprite's cell columns; at most `left` more of them, `cells` so far, `npix` pixels counted. -/
def emitCells : Nat → Nat → Nat → Nat × Nat
  | 0, cells, npix => (cells, npix)
  | left + 1, cells, npix => if npix < Config.maxSprPix then emitCells left (cells + 1) (npix + 8) else (cells, npix)

/-- R54, R55: what the forward pass carries along the chain. -/
structure PlanState where
  nspr : Nat
  npix : Nat
  plan : List PlanEntry
deriving DecidableEq, Repr

/-- R198 to R201: one visible sprite is counted and planned. -/
def PlanState.add (p : PlanState) (i : BitVec 7) (d : SprEntry) : PlanState :=
  let r := if d.inSides then emitCells d.sw 0 p.npix else (0, p.npix)
  { nspr := p.nspr + 1, npix := r.2, plan := p.plan ++ [{ index := i, cells := r.1 }] }

/-- R202: the forward pass stops after this sprite. -/
def PlanState.full (p : PlanState) : Bool := decide (p.nspr = Config.maxSprLine ∨ Config.maxSprPix ≤ p.npix)

end Sys2Proof.Machine
end

