-- ==== Sys2Proof/Machine/Compositor.lean ====
section
/-! DEFINITION. The Pixel Compositor, 40_pixel_compositor.md: `EXPAND` and `DRAW`. -/

namespace Sys2Proof.Machine

/-- R130 `EXPAND(v3)`. -/
def expand (v3 : BitVec 3) : Byte :=
  let v := v3.setWidth 8
  (v <<< 5) ||| (v <<< 2) ||| (v >>> 1)

/-- R131: the cell a draw of `color` at priority `prio` writes. -/
def drawnCell (color : Color) (prio : BitVec 1) : PixelCell :=
  { r := expand color.r3, g := expand color.g3, b := expand color.b3, prio := prio.setWidth 8 }

/-- R131: `DRAW` on the cell it finds: written iff `prio` is at least the cell's priority. -/
def composite (color : Color) (prio : BitVec 1) (c : PixelCell) : PixelCell :=
  if c.prio.toNat ≤ prio.toNat then drawnCell color prio else c

/-- R131 `DRAW(x, color, prio)` on the line buffer. A position without a cell is the model's fault (log 13). -/
def drawCell (x : Int) (color : Color) (prio : BitVec 1) (lb : LineBuf) : Host.Outcome LineBuf Fault Refusal :=
  match lb.cell x with
  | some c => .next (lb.put x (composite color prio c))
  | none => .fault .cellOutsideBuffer

/-- op 16, R130. -/
def execExpand (v3 : BitVec 3) (s : State) : Host.Outcome State Fault Refusal := .next (s.returns (.channel (expand v3)))

/-- op 17, R131. -/
def execDraw (x : Int) (color : Color) (prio : BitVec 1) (s : State) : Host.Outcome State Fault Refusal :=
  onLb s (drawCell x color prio s.work.lb)

end Sys2Proof.Machine
end

