-- ==== Sys2Proof/Machine/Pattern.lean ====
section
/-! DEFINITION. The Pattern Decoder, 41_pattern_decoder.md: `PATDEC` and its field form. -/

namespace Sys2Proof.Machine

/-- R141, R144: plots pixels at consecutive positions from `x` on; an index of 0 issues no draw. -/
def drawPixels (e : Snapshot) (palrow : BitVec 2) (prio : BitVec 1) :
    List (BitVec 4) → Int → LineBuf → Host.Outcome LineBuf Fault Refusal
  | [], _, lb => .next lb
  | p :: ps, x, lb =>
    andThen (if p = 0#4 then .next lb else drawCell x (palRead e (paletteIndex palrow p)) prio lb)
      (drawPixels e palrow prio ps (x + 1))

/-- R141 `PATDECF`. -/
def patdecF (e : Snapshot) (x : Int) (n : NtEntry) (subrow : BitVec 3) (lb : LineBuf) :
    Host.Outcome LineBuf Fault Refusal :=
  drawPixels e n.palrow n.prio (patternPixels e n subrow) x lb

/-- op 18, R140, R141: either form of the tile operand. -/
def execPatdec (x : Int) (ref : PatRef) (subrow : BitVec 3) (s : State) : Host.Outcome State Fault Refusal :=
  onLb s (patdecF s.ext x (refFields ref) subrow s.work.lb)

end Sys2Proof.Machine
end

