-- ==== Sys2Proof/Machine/RowRun.lean ====
section
/-! DEFINITION. The Nametable Row Renderer, 42_nametable_row.md: `ROWRUN`. -/

namespace Sys2Proof.Machine

/-- R150: `ncols` consecutive entries from `addr` on, decoded 8 positions apart from `x` on. -/
def rowRun (e : Snapshot) (subrow : BitVec 3) : Nat → Int → Nat → LineBuf → Host.Outcome LineBuf Fault Refusal
  | 0, _, _, lb => .next lb
  | ncols + 1, x, addr, lb =>
    andThen (patdecF e x (NtEntry.ofWord (memRead2 e addr)) subrow lb)
      (rowRun e subrow ncols (x + 8) (addr + Config.ntEntryBytes))

/-- op 19, R150. -/
def execRowrun (x : Int) (addr : Word) (ncols : Nat) (subrow : BitVec 3) (s : State) : Host.Outcome State Fault Refusal :=
  onLb s (rowRun s.ext subrow ncols x addr.toNat s.work.lb)

end Sys2Proof.Machine
end

