-- ==== Sys2Proof/Machine/Plane.lean ====
section
/-! DEFINITION. The Plane Renderer, 43_plane_renderer.md: `PLANE`. -/

namespace Sys2Proof.Machine

/-- R156 to R161: where a line of a plane comes from, for a plane of `wt` by `ht` tiles. -/
structure PlaneLine where
  /-- R158: the address of column 0 of the tile row -/
  rowAddr : Nat
  /-- R157: the sub-row -/
  subrow : BitVec 3
  /-- R161: the effective horizontal scroll -/
  sx : Nat
  /-- R160: the plane pixel column at screen position 0 -/
  off : Nat
deriving DecidableEq, Repr

/-- R157, R158, R161, R160: the vertical position, the row address and the scroll of a line. -/
def planeLine (wt ht line base hscroll vscroll : Nat) : PlaneLine :=
  let v := (vscroll + line) % (ht * 8)
  let sx := hscroll % (wt * 8)
  { rowAddr := base + v / 8 * wt * Config.ntEntryBytes, subrow := BitVec.ofNat 3 (v % 8), sx := sx, off := wt * 8 - sx }

/-- R159: pass 1, from the plane's own left edge at position `sx`. -/
def planePass1 (e : Snapshot) (p : PlaneLine) (lb : LineBuf) : Host.Outcome LineBuf Fault Refusal :=
  if p.sx < Config.screenW then rowRun e p.subrow (ceil8 (Config.screenW - p.sx)) p.sx p.rowAddr lb else .next lb

/-- R160: the number of columns pass 2 draws. -/
def pass2Columns (wt : Nat) (p : PlaneLine) : Nat := min (wt - p.off / 8) (ceil8 (Config.screenW + p.off % 8))

/-- R160: pass 2, the columns left of the plane's column 0. -/
def planePass2 (e : Snapshot) (wt : Nat) (p : PlaneLine) (lb : LineBuf) : Host.Outcome LineBuf Fault Refusal :=
  if 0 < p.sx then
    rowRun e p.subrow (pass2Columns wt p) (-((p.off % 8 : Nat) : Int)) (p.rowAddr + Config.ntEntryBytes * (p.off / 8)) lb
  else .next lb

/-- R155, R156 `PLANE(line, base, hscroll, vscroll)` on the line buffer. A size code of 2 has no width (log 14). -/
def planeRun (e : Snapshot) (line base hscroll vscroll : Nat) (lb : LineBuf) : Host.Outcome LineBuf Fault Refusal :=
  match planeTiles e.regf.planeWCode, planeTiles e.regf.planeHCode with
  | some wt, some ht =>
    let p := planeLine wt ht line base hscroll vscroll
    andThen (planePass1 e p lb) (planePass2 e wt p)
  | _, _ => .refused .reservedPlaneSize

/-- op 20, R156. -/
def execPlane (line : Byte) (base : Word) (hscroll vscroll : BitVec 10) (s : State) : Host.Outcome State Fault Refusal :=
  onLine line (onLb s (planeRun s.ext line.toNat base.toNat hscroll.toNat vscroll.toNat s.work.lb))

end Sys2Proof.Machine
end

