-- ==== Sys2Proof/Machine/Rasterizer.lean ====
section
/-! DEFINITION. The sprite pattern rasterizer, 47_sprite_rasterizer.md: `SPRDECODE`, `SPRPLAN`, `SPRDRAW`. -/

namespace Sys2Proof.Machine

/-! ### The forward pass -/

/-- R198: the walk along the chain, head first. -/
def planFrom (e : Snapshot) (line : Nat) : List (BitVec 7) → PlanState → PlanState
  | [], p => p
  | i :: rest, p =>
    let d := sprFields e i
    if d.visible line then
      let q := p.add i d
      if q.full then q else planFrom e line rest q
    else planFrom e line rest p

/-- R198 `SPRPLAN(line)`: the counters and the plan start from nothing. -/
def spritePlan (e : Snapshot) (line : Nat) (chain : List (BitVec 7)) : PlanState :=
  planFrom e line chain { nspr := 0, npix := 0, plan := [] }

/-! ### The reverse pass -/

/-- R197: the cell row of a sprite that a line crosses, flipped with the sprite. -/
def cellRow (d : SprEntry) (line : Nat) : Int :=
  let row := ((line : Int) - d.y) / 8
  if (NtEntry.ofWord d.ref).vflip = 1#1 then (d.sh : Int) - 1 - row else row

/-- R197: the row inside the cell, not flipped. -/
def cellSubrow (d : SprEntry) (line : Nat) : BitVec 3 := BitVec.ofInt 3 (((line : Int) - d.y) % 8)

/-- R205, R207: the tile of screen cell column `p`: column-major storage, reduced modulo 2048. -/
def cellTile (d : SprEntry) (line p : Nat) : BitVec 11 :=
  let n := NtEntry.ofWord d.ref
  let t : Int := n.tile.toNat + cellRow d line
  if n.hflip = 1#1 then BitVec.ofInt 11 (t + (d.sh : Int) * ((d.sw : Int) - 1) - (d.sh : Int) * p)
  else BitVec.ofInt 11 (t + (d.sh : Int) * p)

/-- R204: what `PATDECF` is given for screen cell column `p`: the sprite's reference with that column's tile. -/
def cellEntry (d : SprEntry) (line p : Nat) : NtEntry := { NtEntry.ofWord d.ref with tile := cellTile d line p }

/-- R206: `left` cell columns from column `p` on, left to right, column `p` at `x + 8 * p`. -/
def drawCells (e : Snapshot) (d : SprEntry) (line : Nat) : Nat → Nat → LineBuf → Host.Outcome LineBuf Fault Refusal
  | 0, _, lb => .next lb
  | left + 1, p, lb =>
    andThen (patdecF e (d.x + 8 * (p : Int)) (cellEntry d line p) (cellSubrow d line) lb)
      (drawCells e d line left (p + 1))

/-- Draws planned sprites in the order of the list. -/
def drawSprites (e : Snapshot) (line : Nat) : List PlanEntry → LineBuf → Host.Outcome LineBuf Fault Refusal
  | [], lb => .next lb
  | q :: rest, lb => andThen (drawCells e (sprFields e q.index) line q.cells 0 lb) (drawSprites e line rest)

/-- R204 `SPRDRAW(line)`: from the last element of the plan to the first. -/
def spriteDraw (e : Snapshot) (line : Nat) (plan : List PlanEntry) (lb : LineBuf) : Host.Outcome LineBuf Fault Refusal :=
  drawSprites e line plan.reverse lb

/-! ### The operations -/

/-- op 24, R195: the six fields are returned. -/
def execSprdecode (i : BitVec 7) (s : State) : Host.Outcome State Fault Refusal := .next (s.returns (.entry (sprFields s.ext i)))

/-- The state after the forward pass over the chain it holds (R198). -/
def State.planned (s : State) (line : Nat) : State :=
  let p := spritePlan s.ext line s.work.chain
  s.setPlan p.nspr p.npix p.plan

/-- op 25, R198. -/
def execSprplan (line : Byte) (s : State) : Host.Outcome State Fault Refusal := onLine line (.next (s.planned line.toNat))

/-- op 26, R204. -/
def execSprdraw (line : Byte) (s : State) : Host.Outcome State Fault Refusal :=
  onLine line (onLb s (spriteDraw s.ext line.toNat s.work.plan s.work.lb))

end Sys2Proof.Machine
end

