-- ==== Sys2Proof/Machine/Scroll.lean ====
section
/-! DEFINITION. Horizontal Scroll Fetch, 45_hscroll_fetch.md: `HSFETCH`. -/

namespace Sys2Proof.Machine

/-- R175, R177: `hs_a` of a line, the field at offset 0 of its slot. -/
def hsFetchA (e : Snapshot) (line : Nat) : BitVec 10 :=
  hsField (memRead2 e (hsSlotAddr e (hsIndex e.regf.hsMode line)))

/-- R175, R177: `hs_b` of a line, the field at offset 2 of its slot. -/
def hsFetchB (e : Snapshot) (line : Nat) : BitVec 10 :=
  hsField (memRead2 e (hsSlotAddr e (hsIndex e.regf.hsMode line) + 2))

/-- op 22, R175: the pair is returned; nothing is latched here. -/
def execHsfetch (line : Byte) (s : State) : Host.Outcome State Fault Refusal :=
  onLine line (.next (s.returns (.scroll (hsFetchA s.ext line.toNat) (hsFetchB s.ext line.toNat))))

end Sys2Proof.Machine
end

