-- ==== Sys2Proof/Machine/Traverser.lean ====
section
/-! DEFINITION. The sprite list traverser, 46_sprite_traverser.md: `SPRTRAV`. -/

namespace Sys2Proof.Machine

/-- R185: the loop from index `idx` on, with room for `room` more indices. -/
def chainFrom (e : Snapshot) : Nat → BitVec 7 → List (BitVec 7)
  | 0, _ => []
  | room + 1, idx => idx :: (if sprLink e idx = 0#7 then [] else chainFrom e room (sprLink e idx))

/-- R185, R186 `SPRTRAV()`: from entry 0, at most 64 indices. -/
def spriteChain (e : Snapshot) : List (BitVec 7) := chainFrom e Config.maxChain 0#7

/-- op 23, R185. -/
def execSprtrav (s : State) : Host.Outcome State Fault Refusal := .next (s.setChain (spriteChain s.ext))

end Sys2Proof.Machine
end

