-- ==== Sys2Proof/Machine/Window.lean ====
section
/-! DEFINITION. The Window Plane Renderer, 44_window_plane.md: `WINDOW`. -/

namespace Sys2Proof.Machine

/-- R170, R171: the address of the window's tile row on a line. -/
def windowRowAddr (e : Snapshot) (line : Nat) : Nat := e.regf.baseW.toNat + line / 8 * Config.winStride

/-- R170 `WINDOW(line)` on the line buffer. -/
def windowRun (e : Snapshot) (line : Nat) (lb : LineBuf) : Host.Outcome LineBuf Fault Refusal :=
  rowRun e (BitVec.ofNat 3 (line % 8)) Config.winCols 0 (windowRowAddr e line) lb

/-- op 21, R170. -/
def execWindow (line : Byte) (s : State) : Host.Outcome State Fault Refusal :=
  onLine line (onLb s (windowRun s.ext line.toNat s.work.lb))

end Sys2Proof.Machine
end

