-- ==== Sys2Proof/Machine/Stages.lean ====
section
/-! DEFINITION. The stages of the Scanline Orchestrator, 48_scanline_orchestrator.md, sections 2 and 3. Each stage does
its work and moves `STAGE` to the stage that runs next (R57, R217; log 4). -/

namespace Sys2Proof.Machine

/-- R107: the code of a stage, 0 to 9 in the order `STAGE` takes them. -/
def Stage.code : Stage → BitVec 5
  | .clear => 0
  | .dispGate => 1
  | .backdrop => 2
  | .planeGate => 3
  | .configCheck => 4
  | .scrollFetch => 5
  | .planeB => 6
  | .winOrPlaneA => 7
  | .sprites => 8
  | .done => 9

/-- R107: the stage with a code. -/
def Stage.ofCode (op : BitVec 5) : Option Stage :=
  match op.toNat with
  | 0 => some .clear
  | 1 => some .dispGate
  | 2 => some .backdrop
  | 3 => some .planeGate
  | 4 => some .configCheck
  | 5 => some .scrollFetch
  | 6 => some .planeB
  | 7 => some .winOrPlaneA
  | 8 => some .sprites
  | 9 => some .done
  | _ => none

/-- R218: the cleared cell. -/
def clearedCell : PixelCell := { r := 0, g := 0, b := 0, prio := 0 }

/-- R220: the backdrop cell, the expanded colour at priority 0. -/
def backdropCell (e : Snapshot) : PixelCell := drawnCell (palRead e e.regf.backdrop) 0#1

/-- R218: all 384 cells are cleared. -/
def State.cleared (s : State) : State := (s.setLb (LineBuf.fill clearedCell)).atStage .dispGate

/-- R219: a disabled display goes to Done. -/
def State.dispGated (s : State) : State := s.atStage (if s.ext.regf.dispDisable = 1#1 then .done else .backdrop)

/-- R220: all 384 cells take the backdrop, a direct write. -/
def State.backdropped (s : State) : State := (s.setLb (LineBuf.fill (backdropCell s.ext))).atStage .planeGate

/-- R221: disabled planes go to Done. -/
def State.planeGated (s : State) : State := s.atStage (if s.ext.regf.planeEn = 0#1 then .done else .configCheck)

/-- R222: the first failing test raises its fault. -/
def State.configChecked (s : State) : State :=
  match configFault s.ext.regf with
  | some c => s.raise c
  | none => s.atStage .scrollFetch

/-- R223: the four scroll values are latched. -/
def State.scrollFetched (s : State) (line : Nat) : State :=
  (s.setLatches (hsFetchA s.ext line) (hsFetchB s.ext line) (vsRead s.ext .a) (vsRead s.ext .b)).atStage .planeB

/-- R224: `PLANE(line, BASE_B, HSB, VSB)`. -/
def State.planeBStage (s : State) (line : Nat) : Host.Outcome State Fault Refusal :=
  onLb (s.atStage .winOrPlaneA)
    (planeRun s.ext line s.ext.regf.baseB.toNat s.work.hsB.toNat s.work.vsB.toNat s.work.lb)

/-- R225: the window, or `PLANE(line, BASE_A, HSA, VSA)`; exactly one of the two. -/
def State.winOrPlaneAStage (s : State) (line : Nat) : Host.Outcome State Fault Refusal :=
  onLb (s.atStage .sprites)
    (if windowSelected s.ext.regf line then windowRun s.ext line s.work.lb
     else planeRun s.ext line s.ext.regf.baseA.toNat s.work.hsA.toNat s.work.vsA.toNat s.work.lb)

/-- R226, R208: `SPRTRAV()`, `SPRPLAN(line)`, `SPRDRAW(line)`. -/
def State.spritesStage (s : State) (line : Nat) : Host.Outcome State Fault Refusal :=
  let t := (s.setChain (spriteChain s.ext)).planned line
  onLb (t.atStage .done) (spriteDraw t.ext line t.work.plan t.work.lb)

/-- R227: the visible cells are copied out and the render ends with status OK. -/
def State.delivered (s : State) : State := s.finish (.row s.work.lb.row)

/-- op 0, R218. -/
def execClear (s : State) : Host.Outcome State Fault Refusal := .next s.cleared

/-- op 1, R219. -/
def execDispgate (s : State) : Host.Outcome State Fault Refusal := .next s.dispGated

/-- op 2, R220. -/
def execBackdrop (s : State) : Host.Outcome State Fault Refusal := .next s.backdropped

/-- op 3, R221. -/
def execPlanegate (s : State) : Host.Outcome State Fault Refusal := .next s.planeGated

/-- op 4, R222. -/
def execConfigcheck (s : State) : Host.Outcome State Fault Refusal := .next s.configChecked

/-- op 5, R223. -/
def execScrollfetch (line : Byte) (s : State) : Host.Outcome State Fault Refusal :=
  onLine line (.next (s.scrollFetched line.toNat))

/-- op 6, R224. -/
def execPlaneb (line : Byte) (s : State) : Host.Outcome State Fault Refusal := onLine line (s.planeBStage line.toNat)

/-- op 7, R225. -/
def execWinsel (line : Byte) (s : State) : Host.Outcome State Fault Refusal := onLine line (s.winOrPlaneAStage line.toNat)

/-- op 8, R226. -/
def execSprites (line : Byte) (s : State) : Host.Outcome State Fault Refusal := onLine line (s.spritesStage line.toNat)

/-- op 9, R227. -/
def execDone (s : State) : Host.Outcome State Fault Refusal := .next s.delivered

end Sys2Proof.Machine
end

