-- ==== Sys2Proof/Machine/Render.lean ====
section
/-! DEFINITION. The request, 48_scanline_orchestrator.md section 1: `RENDER`, one atomic operation (R7). -/

namespace Sys2Proof.Machine

/-- R215: the stages from ScrollFetch on, in order, and Done. -/
def renderLayers (line : Nat) (s : State) : Host.Outcome State Fault Refusal :=
  andThen ((s.scrollFetched line).planeBStage line) fun t =>
  andThen (t.winOrPlaneAStage line) fun u =>
  andThen (u.spritesStage line) fun v =>
  .next v.delivered

/-- R215: the whole render of a line of the block's domain. -/
def renderLine (line : Byte) (s : State) : Host.Outcome State Fault Refusal :=
  let s := (s.enterRender line).cleared
  if s.ext.regf.dispDisable = 1#1 then .next s.dispGated.delivered
  else
    let s := s.dispGated.backdropped
    if s.ext.regf.planeEn = 0#1 then .next s.planeGated.delivered
    else
      let s := s.planeGated
      match configFault s.ext.regf with
      | some c => .next (s.raise c)
      | none => renderLayers line.toNat (s.atStage .scrollFetch)

/-- op 31, R215: served when the block is idle (R276) and the line is in 0 to 223 (R216). -/
def execRender (line : Byte) (s : State) : Host.Outcome State Fault Refusal :=
  if s.stage.isSome then .refused .requestDuringRender else onLine line (renderLine line s)

end Sys2Proof.Machine
end

