-- ==== Sys2Proof/Machine/Dispatch.lean ====
section
/-! DEFINITION. One arm per operation: the meaning of each. -/

namespace Sys2Proof.Machine

def exec (i : Instr) (s : State) : Host.Outcome State Fault Refusal :=
  match i with
  -- the stages of the orchestrator, codes 0 to 9
  | .clear => Sys2Proof.Machine.execClear s
  | .dispgate => Sys2Proof.Machine.execDispgate s
  | .backdrop => Sys2Proof.Machine.execBackdrop s
  | .planegate => Sys2Proof.Machine.execPlanegate s
  | .configcheck => Sys2Proof.Machine.execConfigcheck s
  | .scrollfetch line => Sys2Proof.Machine.execScrollfetch line s
  | .planeb line => Sys2Proof.Machine.execPlaneb line s
  | .winsel line => Sys2Proof.Machine.execWinsel line s
  | .sprites line => Sys2Proof.Machine.execSprites line s
  | .done => Sys2Proof.Machine.execDone s
  -- the called operations, codes 16 to 26
  | .expand v3 => Sys2Proof.Machine.execExpand v3 s
  | .draw x color prio => Sys2Proof.Machine.execDraw x color prio s
  | .patdec x ref subrow => Sys2Proof.Machine.execPatdec x ref subrow s
  | .rowrun x addr ncols subrow => Sys2Proof.Machine.execRowrun x addr ncols subrow s
  | .plane line base hscroll vscroll => Sys2Proof.Machine.execPlane line base hscroll vscroll s
  | .window line => Sys2Proof.Machine.execWindow line s
  | .hsfetch line => Sys2Proof.Machine.execHsfetch line s
  | .sprtrav => Sys2Proof.Machine.execSprtrav s
  | .sprdecode index => Sys2Proof.Machine.execSprdecode index s
  | .sprplan line => Sys2Proof.Machine.execSprplan line s
  | .sprdraw line => Sys2Proof.Machine.execSprdraw line s
  -- the request, code 31
  | .render line => Sys2Proof.Machine.execRender line s

end Sys2Proof.Machine
end

