-- ==== Sys2Proof/Machine/Fetch.lean ====
section
/-! DEFINITION. What the block runs next. A render in progress runs the operation of its stage (R217; the stage codes
are operation codes, R107), or first a called operation that stands in `call` (log 3); an idle block serves what the
outside does next (R74, R256; log 11). The duties of the outside are the table after R280. -/

namespace Sys2Proof.Machine

/-- What the fetch finds. -/
inductive Fetched where
  /-- The block is idle and the outside does nothing (R256). -/
  | idle
  /-- A write of the collaborator between two renders has been made (R74). -/
  | written (s : State)
  /-- An operation, by its bytes, and the state it runs in. -/
  | operation (bytes : List Byte) (s : State)
  /-- A duty of the outside is broken (R275, R276). -/
  | broken (r : Refusal)
deriving DecidableEq, Repr

/-- A render is in progress, or a called operation is to be run. -/
def State.busy (s : State) : Bool := s.stage.isSome || !s.call.isEmpty

/-- The bytes of the operation a busy block runs next. -/
def State.nextOperation (s : State) : List Byte :=
  match s.call, s.stage with
  | [], some st => [st.code.setWidth 8, s.work.line]
  | bs, _ => bs

/-- R97, R107: the bytes of a request. -/
def requestBytes (line : Byte) : List Byte := [31#8, line]

/-- What the block runs next, and the state in which it does. -/
def fetch (s : State) : Fetched :=
  match s.busy, s.inputs with
  | true, [] => .operation s.nextOperation { s with call := [] }
  | true, .request _ :: _ => .broken .requestDuringRender
  | true, .write _ :: _ => .broken .writeDuringRender
  | false, [] => .idle
  | false, .request line :: rest => .operation (requestBytes line) { s with inputs := rest }
  | false, .write w :: rest => .written { s with ext := s.ext.write w, inputs := rest }

/-- The refusal of bytes that are no operation. -/
def decodeRefusal : DecodeError → Refusal
  | .unusedCode op => .unusedOperationCode op
  | .truncated => .truncatedOperation

/-- Places the bytes of an operation where the next fetch finds them: a stage's operation by its stage and line, a
request as what the caller does next on an idle block, any other operation in `call` (log 17). -/
def State.place (s : State) (bs : List Byte) : State :=
  let op : BitVec 5 := field (bs.headD 0) 0 5
  let line : Byte := bs.tail.headD 0
  match Stage.ofCode op with
  | some st => { s with stage := some st, work := { s.work with line := line }, call := [], inputs := [] }
  | none =>
    if op = 31#5 then { s with stage := none, call := [], inputs := .request line :: s.inputs }
    else { s with call := bs, inputs := [] }

end Sys2Proof.Machine
end

