-- ==== Sys2Proof/Machine/Step.lean ====
section
/-! DEFINITION. One step: what the fetch finds is decoded and run. -/

namespace Sys2Proof.Machine

/-- Decodes the bytes of an operation and runs it. -/
def runBytes (bs : List Byte) (s : State) : Host.Outcome State Fault Refusal :=
  match decode bs with
  | .ok (i, _) => exec i s
  | .error e => .refused (decodeRefusal e)

/-- One step of the block. -/
def step (s : State) : Host.Outcome State Fault Refusal :=
  match fetch s with
  | .idle => .next s
  | .written t => .next t
  | .operation bs t => runBytes bs t
  | .broken r => .refused r

/-- `s` with the operation whose bits are `w` (numbered as spec/opcode_table.json numbers them, zeros above `nbits`)
placed where `step` fetches next. -/
def State.withFetchWord (s : State) (nbits w : Nat) : State := s.place (tableBytes nbits w)

end Sys2Proof.Machine
end

