-- ==== Sys2Proof/WellFormed.lean ====
section
/-! DEFINITION. Which operands an operation may have: the ranges the rules and spec/opcode_table.json give. Operands
whose type already is their range (fields of bits) need no check here. -/

namespace Sys2Proof

/-- R97, R216: a line index in 0 to 223. -/
def lineOk (line : Byte) : Bool := decide (line.toNat < Config.visibleLines)

/-- R50: `n` cells from screen position `x` on lie in the line buffer, -32 to 351. -/
def spanOk (x : Int) (n : Nat) : Bool := decide (-32 ≤ x ∧ x + (n : Int) ≤ 352)

/-- The operand ranges: R131 (`x` of DRAW), R140 (`x` of PATDEC), R150 and R152 (at most 41 columns, inside the
buffer), R216 (lines). -/
def Instr.wellFormed : Instr → Bool
  | .clear | .dispgate | .backdrop | .planegate | .configcheck | .done => true
  | .scrollfetch line | .planeb line | .winsel line | .sprites line => lineOk line
  | .expand _ | .sprtrav | .sprdecode _ => true
  | .draw x _ _ => spanOk x 1
  | .patdec x _ _ => spanOk x 8
  | .rowrun x _ ncols _ => spanOk x (8 * ncols) && decide (ncols ≤ 41)
  | .plane line _ _ _ => lineOk line
  | .window line | .hsfetch line | .sprplan line | .sprdraw line => lineOk line
  | .render line => lineOk line

end Sys2Proof
end

