-- ==== Sys2Proof/Safety.lean ====
section
/-! DEFINITION. What claims are stated in terms of: a safe outcome, and the invariant of a machine state. -/

namespace Sys2Proof.Safety

open Sys2Proof.Machine

/-- The machine goes on. -/
def completes (o : Host.Outcome State Fault Refusal) : Prop := ∃ t, o = .next t

/-- `n` steps, one after another; a stop stays a stop. -/
def steps : Nat → State → Host.Outcome State Fault Refusal
  | 0, s => .next s
  | n + 1, s => andThen (step s) (steps n)

/-- R51: every cell of a line buffer holds priority 0 or 1. -/
def prioritiesOk (lb : LineBuf) : Prop := ∀ x c, lb.cell x = some c → c.prio.toNat ≤ 1

/-- R219, R221, R222: the configuration a render must have passed to stand past ConfigCheck. -/
def configOk (f : RegFields) : Prop := f.dispDisable = 0#1 ∧ f.planeEn = 1#1 ∧ configFault f = none

/-- What holds of a render that stands at a stage (R216 to R222). -/
def stageOk (s : State) (st : Stage) : Prop :=
  s.work.line.toNat < Config.visibleLines ∧
  (st ≠ .clear → prioritiesOk s.work.lb) ∧
  match st with
  | .clear | .dispGate | .done => True
  | .backdrop | .planeGate => s.ext.regf.dispDisable = 0#1
  | .configCheck => s.ext.regf.dispDisable = 0#1 ∧ s.ext.regf.planeEn = 1#1
  | .scrollFetch | .planeB | .winOrPlaneA | .sprites => configOk s.ext.regf

/-- The bytes in `call`, if they are an operation, are one that stages call, never a stage or a request (R107). -/
def callOk (bs : List Byte) : Prop := ∀ i rest, decode bs = .ok (i, rest) → i.kind = .call

/-- The invariant of the machine: video memory is in canonical form; a render in progress has what its stage needs; what
stands in `call` is a called operation. -/
def Inv (s : State) : Prop :=
  s.ext.vram.wf = true ∧ callOk s.call ∧ ∀ st, s.stage = some st → stageOk s st

end Sys2Proof.Safety
end

