-- ==== Sys2Proof/Safety/Picture.lean ====
section
/-! DEFINITION. The picture, cell by cell: what the rules say each position of a line shows, with no loop and no line
buffer. Claims compare what the operations do with these functions. -/

namespace Sys2Proof.Picture

open Sys2Proof.Machine

/-- R141, R144, R104: what pixel index `p` does to a cell: index 0 leaves it, any other draws palette entry
`16 * palrow + p` (R131). -/
def paint (e : Snapshot) (palrow : BitVec 2) (prio : BitVec 1) (p : BitVec 4) (c : PixelCell) : PixelCell :=
  if p = 0#4 then c else composite (palRead e (BitVec.ofNat 6 (16 * palrow.toNat + p.toNat))) prio c

/-- R92, R103: pixel `k` of pattern row `r`: byte `k / 2` of the 4 from `32 * tile + 4 * r` on, the high nibble for an
even `k`. -/
def storedPixel (e : Snapshot) (tile : BitVec 11) (r k : Nat) : BitVec 4 :=
  let b := (memRead1 e (32 * tile.toNat + 4 * r + k / 2)).toNat
  BitVec.ofNat 4 (if k % 2 = 0 then b / 16 else b % 16)

/-- R142, R143: screen pixel `i` (0 the leftmost) of sub-row `subrow` of a tile: row `7 - subrow` with the vertical flip,
pixel `7 - i` with the horizontal flip. -/
def tilePixel (e : Snapshot) (n : NtEntry) (subrow : BitVec 3) (i : Nat) : BitVec 4 :=
  storedPixel e n.tile (if n.vflip = 1#1 then 7 - subrow.toNat else subrow.toNat) (if n.hflip = 1#1 then 7 - i else i)

/-- R141: screen pixel `i` of a tile over a cell. -/
def tileOver (e : Snapshot) (n : NtEntry) (subrow : BitVec 3) (i : Nat) (c : PixelCell) : PixelCell :=
  paint e n.palrow n.prio (tilePixel e n subrow i) c

/-- R140, R141: a tile whose leftmost pixel stands at `x`, over the cell at `y`. -/
def tileAt (e : Snapshot) (n : NtEntry) (subrow : BitVec 3) (x y : Int) (c : PixelCell) : PixelCell :=
  if x ≤ y ∧ y < x + 8 then tileOver e n subrow (y - x).toNat c else c

/-- R91: the fields of a nametable entry, as numbers: bits 10:0, 11, 12, 14:13 and 15. -/
def entryOf (w : Word) : NtEntry :=
  { tile := BitVec.ofNat 11 w.toNat, hflip := BitVec.ofNat 1 (w.toNat / 2048), vflip := BitVec.ofNat 1 (w.toNat / 4096),
    palrow := BitVec.ofNat 2 (w.toNat / 8192), prio := BitVec.ofNat 1 (w.toNat / 32768) }

/-- R150: the entry of a run that pixel `k` of it belongs to. -/
def runEntry (e : Snapshot) (addr k : Nat) : NtEntry := entryOf (memRead2 e (addr + 2 * (k / 8)))

/-- R150: a run of `ncols` columns from `x` on, over the cell at `y`. -/
def runAt (e : Snapshot) (subrow : BitVec 3) (ncols : Nat) (x : Int) (addr : Nat) (y : Int) (c : PixelCell) : PixelCell :=
  if x ≤ y ∧ y < x + 8 * (ncols : Int) then
    tileOver e (runEntry e addr (y - x).toNat) subrow ((y - x).toNat % 8) c
  else c

/-- R159: pass 1 of a plane, over the cell at `y`. -/
def pass1At (e : Snapshot) (p : PlaneLine) (y : Int) (c : PixelCell) : PixelCell :=
  if p.sx < 320 then runAt e p.subrow ((320 - p.sx + 7) / 8) p.sx p.rowAddr y c else c

/-- R160: pass 2 of a plane, over the cell at `y`. -/
def pass2At (e : Snapshot) (wt : Nat) (p : PlaneLine) (y : Int) (c : PixelCell) : PixelCell :=
  if 0 < p.sx then
    runAt e p.subrow (min (wt - p.off / 8) ((320 + p.off % 8 + 7) / 8)) (-((p.off % 8 : Nat) : Int))
      (p.rowAddr + 2 * (p.off / 8)) y c
  else c

/-- R156 to R158: a plane of `wt` by `ht` tiles, over the cell at `y`. -/
def planeAt (e : Snapshot) (wt ht line base hscroll vscroll : Nat) (y : Int) (c : PixelCell) : PixelCell :=
  let v := (vscroll + line) % (ht * 8)
  let sx := hscroll % (wt * 8)
  let p : PlaneLine := { rowAddr := base + v / 8 * wt * 2, subrow := BitVec.ofNat 3 (v % 8), sx := sx, off := wt * 8 - sx }
  pass2At e wt p y (pass1At e p y c)

/-- R162: a plane as the horizontally wrapping strip: at `y` the pixel of plane column `(y - sx) mod W`. -/
def stripAt (e : Snapshot) (wt ht line base hscroll vscroll : Nat) (y : Int) (c : PixelCell) : PixelCell :=
  let v := (vscroll + line) % (ht * 8)
  let col := ((y - (hscroll : Int)) % ((wt * 8 : Nat) : Int)).toNat
  tileOver e (entryOf (memRead2 e (base + v / 8 * wt * 2 + 2 * (col / 8)))) (BitVec.ofNat 3 (v % 8)) (col % 8) c

/-- R170: the window, over the cell at `y`. -/
def windowAt (e : Snapshot) (line : Nat) (y : Int) (c : PixelCell) : PixelCell :=
  runAt e (BitVec.ofNat 3 (line % 8)) 40 0 (windowRowAddr e line) y c

/-- R204 to R206: the first `cells` cell columns of sprite table entry `i`, over the cell at `y`, each with the flips, the
palette row and the priority of the sprite's reference. -/
def spriteAt (e : Snapshot) (line : Nat) (q : PlanEntry) (y : Int) (c : PixelCell) : PixelCell :=
  let d := sprFields e q.index
  if d.x ≤ y ∧ y < d.x + 8 * (q.cells : Int) then
    tileOver e { entryOf d.ref with tile := cellTile d line ((y - d.x).toNat / 8) } (cellSubrow d line) ((y - d.x).toNat % 8) c
  else c

/-- R204: the planned sprites, the last of the plan first, over the cell at `y`. -/
def spritesAt (e : Snapshot) (line : Nat) (plan : List PlanEntry) (y : Int) (c : PixelCell) : PixelCell :=
  plan.reverse.foldl (fun c q => spriteAt e line q y c) c

/-- R200, R201: how many cell columns a visible sprite asks for. -/
def demand (d : SprEntry) : Nat := if -8 * (d.sw : Int) < d.x ∧ d.x < 320 then d.sw else 0

/-- R196: the sprites of a chain that are visible on a line, in chain order. -/
def visibleChain (e : Snapshot) (line : Nat) (chain : List (BitVec 7)) : List (BitVec 7) :=
  chain.filter fun i =>
    decide ((sprFields e i).y ≤ (line : Int) ∧ (line : Int) < (sprFields e i).y + 8 * ((sprFields e i).sh : Int))

/-- R201, R202: how many cell columns the first `k` visible sprites ask for. -/
def demandBefore (e : Snapshot) (v : List (BitVec 7)) (k : Nat) : Nat := ((v.take k).map (fun i => demand (sprFields e i))).sum

/-- R198 to R202: the draw plan without a loop. Visible sprite `k` is planned when it is one of the first 16 and those
before it ask for fewer than 32 cell columns (256 pixels); it gets the columns it asks for, as far as 32 allow. -/
def planOf (e : Snapshot) (line : Nat) (chain : List (BitVec 7)) : List PlanEntry :=
  let v := visibleChain e line chain
  ((List.range (min 16 v.length)).filter (fun k => decide (demandBefore e v k < 32))).map fun k =>
    { index := v.getD k 0, cells := min (demand (sprFields e (v.getD k 0))) (32 - demandBefore e v k) }

/-- R224, R225: a plane by its base and the scrolls fetched for the line. -/
def planeOf (e : Snapshot) (line base : Nat) (hscroll vscroll : BitVec 10) (y : Int) (c : PixelCell) : PixelCell :=
  match planeTiles e.regf.planeWCode, planeTiles e.regf.planeHCode with
  | some wt, some ht => planeAt e wt ht line base hscroll.toNat vscroll.toNat y c
  | _, _ => c

/-- R223 to R226: every layer of a line drawn over the cell at `y`: plane B, window or plane A, sprites. -/
def layersAt (e : Snapshot) (line : Nat) (y : Int) (c : PixelCell) : PixelCell :=
  let c := planeOf e line e.regf.baseB.toNat (hsFetchB e line) e.vsB y c
  let c := if windowSelected e.regf line then windowAt e line y c
    else planeOf e line e.regf.baseA.toNat (hsFetchA e line) e.vsA y c
  spritesAt e line (spritePlan e line (spriteChain e)).plan y c

/-- R228: the cell at `y` once every layer has been drawn over the backdrop. -/
def layeredCell (e : Snapshot) (line : Nat) (y : Int) : PixelCell := layersAt e line y (backdropCell e)

/-- R219 to R222, R227: pixel `k` of the row a render of `line` answers with, when it answers with a row. -/
def rowPixel (e : Snapshot) (line : Nat) (k : Nat) : Pixel :=
  if e.regf.dispDisable = 1#1 then clearedCell.pixel
  else if e.regf.planeEn = 0#1 then (backdropCell e).pixel
  else (layeredCell e line k).pixel

/-- R219, R221, R222: the fault a render answers with, if it does. -/
def renderFault (e : Snapshot) : Option Cause :=
  if e.regf.dispDisable = 1#1 ∨ e.regf.planeEn = 0#1 then none else configFault e.regf

end Sys2Proof.Picture
end

