-- ==== Sys2Proof/Certificates/Slice0/Obligations.lean ====
section
/-! DEFINITION. The statements for the provers. The pictures they speak of stand in Safety/Picture.lean, the invariant in
Safety.lean. A statement about what an operation does has as its conclusion that `exec` answers a next state. -/

open Sys2Proof Sys2Proof.Machine Sys2Proof.Safety Sys2Proof.Picture

/-! ### Words the statements share -/

/-- Everything but the line buffer is as before; so is every byte of video memory. -/
def Sys2Proof.Claims.OnlyLb (s t : State) : Prop :=
  t = { s with work := { s.work with lb := t.work.lb } } ∧ ∀ a, memRead1 t.ext a = memRead1 s.ext a

/-- Everything but the line buffer and the stage is as before; so is every byte of video memory. -/
def Sys2Proof.Claims.OnlyLbAndStage (s t : State) (st : Stage) : Prop :=
  t = { s with work := { s.work with lb := t.work.lb }, stage := some st } ∧ ∀ a, memRead1 t.ext a = memRead1 s.ext a

/-- The cells of `t` are those of `s`, each turned by `f` of its position. -/
def Sys2Proof.Claims.CellsTurnedBy (s t : State) (f : Int → PixelCell → PixelCell) : Prop :=
  ∀ y, t.work.lb.cell y = (s.work.lb.cell y).map (f y)

/-- `t` answers with a row, and pixel `k` of it is `f k`. -/
def Sys2Proof.Claims.RowIs (t : State) (f : Nat → Pixel) : Prop :=
  ∃ r : Row, t.response = some (.row r) ∧ ∀ k < 320, r.pixels[k]? = some (f k)

/-- What the end of a render leaves: no stage, the collaborator's stores, the pending inputs and the last return value
as before. Nothing is said of the transient storage. -/
def Sys2Proof.Claims.RenderEnded (s t : State) : Prop :=
  t.stage = none ∧ t.ext = s.ext ∧ (∀ a, memRead1 t.ext a = memRead1 s.ext a) ∧ t.call = s.call ∧ t.ret = s.ret ∧
  t.inputs = s.inputs

/-- R100, R155: the size codes that exist, in tiles. -/
def Sys2Proof.Claims.SizeCode (code : BitVec 2) (tiles : Nat) : Prop :=
  (code = 0#2 ∧ tiles = 32) ∨ (code = 1#2 ∧ tiles = 64) ∨ (code = 3#2 ∧ tiles = 128)

/-- R225, R106: the window is selected for a line. -/
def Sys2Proof.Claims.WindowLine (f : RegFields) (line : Byte) : Prop :=
  f.winVpos ≠ 0#5 ∧ ((f.winDown = 1#1 ∧ 8 * f.winVpos.toNat ≤ line.toNat) ∨
    (f.winDown = 0#1 ∧ line.toNat ≤ 8 * f.winVpos.toNat))

/-- With a write of this field waiting, the step takes it, the fields become `f`, and nothing else changes. -/
def Sys2Proof.Claims.FieldBecomes (s : State) (rest : List Input) (w : FieldWrite) (f : RegFields) : Prop :=
  s.inputs = .write (.field w) :: rest → step s = .next { s with inputs := rest, ext := { s.ext with regf := f } }

/-- `DRAW` at one position, once for each colour and priority of the list, in its order. -/
def Sys2Proof.Claims.drawEach (x : Int) : List (Color × BitVec 1) → State → Host.Outcome State Fault Refusal
  | [], s => .next s
  | d :: ds, s => andThen (exec (.draw x d.1 d.2) s) (drawEach x ds)

/-- R217: the operation of a stage. -/
def Sys2Proof.Claims.stageOp (line : Byte) : Stage → Instr
  | .clear => .clear
  | .dispGate => .dispgate
  | .backdrop => .backdrop
  | .planeGate => .planegate
  | .configCheck => .configcheck
  | .scrollFetch => .scrollfetch line
  | .planeB => .planeb line
  | .winOrPlaneA => .winsel line
  | .sprites => .sprites line
  | .done => .done

/-- R107, R115, log 1: the codes of the operations that take operand bytes, and how many they take. -/
def Sys2Proof.Claims.operandCounts : List (Nat × Nat) :=
  [(5, 1), (6, 1), (7, 1), (8, 1), (16, 1), (17, 5), (18, 5), (19, 6), (20, 7), (21, 1), (22, 1), (24, 1), (25, 1), (26, 1),
   (31, 1)]

open Sys2Proof.Claims

/-! ### Decoding and stepping -/

/-- Log 1 and 2 (the operand bytes are the model's): every well-formed operation is read back from its bytes, whatever
bytes follow. -/
def Obligations.DecodeOfEncodeIsIdentity : Prop :=
  ∀ (i : Instr) (rest : List Byte), i.wellFormed = true → decode (encode i ++ rest) = .ok (i, rest)

/-- R107 (the codes are the spec's decision D31; the operand byte after a code is the model's, log 1): words written out
from the table, one of each kind of operation and two of the unused codes. -/
def Obligations.WordsOfTheTableDecode : Prop :=
  decodeTableWord 8 0b00000 = some .clear ∧ decodeTableWord 8 0b00100 = some .configcheck ∧
  decodeTableWord 8 0b01001 = some .done ∧ decodeTableWord 16 (0b01010000 * 256 + 0b00111) = some (.winsel 80) ∧
  decodeTableWord 16 (0b101 * 256 + 0b10000) = some (.expand 5) ∧ decodeTableWord 8 0b10111 = some .sprtrav ∧
  decodeTableWord 16 (127 * 256 + 0b11000) = some (.sprdecode 127) ∧
  decodeTableWord 16 (223 * 256 + 0b11111) = some (.render 223) ∧
  decodeTableWord 8 0b01010 = none ∧ decodeTableWord 8 0b11110 = none

/-- R107 (the spec's decision D31; `call` is the model's own, log 3): the unused codes are no operation, and a step that
fetches one is refused by name. -/
def Obligations.UnusedCodesAreRefused : Prop :=
  ∀ (s : State) (b : Byte) (bs : List Byte), s.inputs = [] → s.call = b :: bs →
    (10 ≤ b.toNat % 32 ∧ b.toNat % 32 ≤ 15) ∨ (27 ≤ b.toNat % 32 ∧ b.toNat % 32 ≤ 30) →
    step s = .refused (.unusedOperationCode (field b 0 5))

/-- Log 3 and 11: when the bytes the fetch finds decode to an operation, the step is that operation, on the state with
those bytes taken away: `call` emptied, or the request taken from the inputs. -/
def Obligations.StepRunsTheDecodedOperation : Prop :=
  (∀ (s : State) (i : Instr) (rest : List Byte), s.busy = true → s.inputs = [] →
    decode s.nextOperation = .ok (i, rest) → step s = exec i { s with call := [] }) ∧
  (∀ (s : State) (line : Byte) (rest : List Input), s.busy = false → s.inputs = .request line :: rest →
    step s = exec (.render line) { s with inputs := rest })

/-- R217, R107 (that a stage runs as a step of its own is the model's, log 4; the codes are the spec's decision D31): a
render in progress runs the operation of its stage, at its line. -/
def Obligations.StageRunsItsOperation : Prop :=
  ∀ (s : State) (st : Stage), s.stage = some st → s.call = [] → s.inputs = [] →
    step s = exec (stageOp s.work.line st) s

/-- A byte the collaborator writes between two renders is what the next read of its address finds, and no other byte changes
(R74, R73); that the outside's acts wait in `inputs` is the model's (log 11). The first clause, a step of an idle block with
nothing to serve answers the state itself, is the model's (log 22, DEDUCED from R256). -/
def Obligations.WritesBetweenRendersAreSeen : Prop :=
  ∀ s : State, s.busy = false → s.ext.vram.wf = true →
    (s.inputs = [] → step s = .next s) ∧
    ∀ (addr : Word) (v : Byte) (rest : List Input), s.inputs = .write (.vram addr v) :: rest →
      ∃ t, step s = .next t ∧ t.stage = s.stage ∧ t.work = s.work ∧ t.inputs = rest ∧ t.ext.pal = s.ext.pal ∧
        t.ext.regf = s.ext.regf ∧ t.ext.vsA = s.ext.vsA ∧ t.ext.vsB = s.ext.vsB ∧
        ∀ a, memRead1 t.ext a = if a % 65536 = addr.toNat then v else memRead1 s.ext a

/-- R74, R33, R35, R71, R36: a palette entry, a scroll value or a named field the collaborator writes between two renders is
what the block reads next, and every other entry, value and field is as before. A wider scroll word counts by its low 10
bits. That the outside's acts wait in `inputs` is the model's (log 11). The clause on a register byte rests on the default
binding of R49, which is the spec's decision D6 from general knowledge (log 9, PRESUMED). -/
def Obligations.StoreWritesBetweenRendersAreSeen : Prop :=
  ∀ (s : State) (rest : List Input), s.busy = false →
    (∀ i c, s.inputs = .write (.pal i c) :: rest → ∃ t, step s = .next t ∧ t.inputs = rest ∧
      (∀ j, palRead t.ext j = if j = i then c else palRead s.ext j) ∧ t.ext.vram = s.ext.vram ∧ t.ext.regf = s.ext.regf ∧
      t.ext.vsA = s.ext.vsA ∧ t.ext.vsB = s.ext.vsB) ∧
    (∀ p v, s.inputs = .write (.vscroll p v) :: rest → ∃ t, step s = .next t ∧ t.inputs = rest ∧
      (vsRead t.ext p).toNat = v.toNat % 1024 ∧ (∀ q, q ≠ p → vsRead t.ext q = vsRead s.ext q) ∧
      t.ext.vram = s.ext.vram ∧ t.ext.pal = s.ext.pal ∧ t.ext.regf = s.ext.regf) ∧
    (let f := s.ext.regf
     (∀ v, FieldBecomes s rest (.dispDisable v) { f with dispDisable := v }) ∧
     (∀ v, FieldBecomes s rest (.planeEn v) { f with planeEn := v }) ∧
     (∀ v, FieldBecomes s rest (.baseA v) { f with baseA := v }) ∧
     (∀ v, FieldBecomes s rest (.baseB v) { f with baseB := v }) ∧
     (∀ v, FieldBecomes s rest (.baseW v) { f with baseW := v }) ∧
     (∀ v, FieldBecomes s rest (.satBase v) { f with satBase := v }) ∧
     (∀ v, FieldBecomes s rest (.hsBase v) { f with hsBase := v }) ∧
     (∀ v, FieldBecomes s rest (.winVpos v) { f with winVpos := v }) ∧
     (∀ v, FieldBecomes s rest (.winDown v) { f with winDown := v }) ∧
     (∀ v, FieldBecomes s rest (.winHpos v) { f with winHpos := v }) ∧
     (∀ v, FieldBecomes s rest (.winRight v) { f with winRight := v }) ∧
     (∀ v, FieldBecomes s rest (.hsMode v) { f with hsMode := v }) ∧
     (∀ v, FieldBecomes s rest (.vsColumn v) { f with vsColumn := v }) ∧
     (∀ v, FieldBecomes s rest (.planeWCode v) { f with planeWCode := v }) ∧
     (∀ v, FieldBecomes s rest (.planeHCode v) { f with planeHCode := v }) ∧
     (∀ v, FieldBecomes s rest (.backdrop v) { f with backdrop := v }) ∧
     (∀ v, FieldBecomes s rest (.interlace v) { f with interlace := v })) ∧
    (∀ n v, s.inputs = .write (.reg n v) :: rest → ∃ t, step s = .next t ∧ t.inputs = rest ∧
      t.ext = { s.ext with regf := s.ext.regf.writeReg n v })

/-- R275 (the spec's decision D27), R276: a write or a request that arrives while a render is in progress is refused. -/
def Obligations.BrokenDutiesAreRefused : Prop :=
  ∀ s : State, s.stage.isSome = true →
    (∀ w rest, s.inputs = .write w :: rest → step s = .refused .writeDuringRender) ∧
    (∀ line rest, s.inputs = .request line :: rest → step s = .refused .requestDuringRender) ∧
    (∀ line, exec (.render line) s = .refused .requestDuringRender)

/-- R270 (the spec's decision D25), R59: after reset no render is in progress and nothing has been answered, and the
first request is served. (What the collaborator's stores and the transient storage hold after reset is the model's
choice, log 6 to 8, and is not stated.) -/
def Obligations.ResetIsIdleAndServes : Prop :=
  State.reset.stage = none ∧ State.reset.response = none ∧ State.reset.busy = false ∧
  ∀ line : Byte, line.toNat < 224 → ∃ t, step { State.reset with inputs := [.request line] } = .next t ∧
    t.response.isSome = true

/-! ### The collaborator's interface -/

/-- R62, R63 and R61 (the byte order and the wrap are the spec's decisions D4 and D3): a 16-bit read is two byte reads, the
first the more significant, each address reduced modulo 65536. -/
def Obligations.WordReadsAreBigEndian : Prop :=
  ∀ (e : Snapshot) (a : Nat), (memRead2 e a).toNat = 256 * (memRead1 e a).toNat + (memRead1 e (a + 1)).toNat ∧
    memRead1 e a = memRead1 e (a % 65536) ∧ memRead2 e a = memRead2 e (a % 65536)

/-- R49 (the table is the spec's decision D6, from general knowledge; log 9): what each register byte binds, in numbers;
bytes of registers the table does not name change nothing. -/
def Obligations.RegisterBytesBindTheirFields : Prop :=
  ∀ (f : RegFields) (v : Byte),
    f.writeReg 0 v = { f with dispDisable := BitVec.ofNat 1 v.toNat } ∧
    f.writeReg 1 v = { f with planeEn := BitVec.ofNat 1 (v.toNat / 64) } ∧
    f.writeReg 2 v = { f with baseA := BitVec.ofNat 16 (v.toNat / 8 % 8 * 8192) } ∧
    f.writeReg 3 v = { f with baseW := BitVec.ofNat 16 (v.toNat / 2 % 32 * 2048) } ∧
    f.writeReg 4 v = { f with baseB := BitVec.ofNat 16 (v.toNat % 8 * 8192) } ∧
    f.writeReg 5 v = { f with satBase := BitVec.ofNat 16 (v.toNat % 128 * 512) } ∧
    f.writeReg 7 v = { f with backdrop := BitVec.ofNat 6 v.toNat } ∧
    f.writeReg 11 v = { f with hsMode := BitVec.ofNat 2 v.toNat, vsColumn := BitVec.ofNat 1 (v.toNat / 4) } ∧
    f.writeReg 12 v = { f with interlace := BitVec.ofNat 2 (v.toNat / 2) } ∧
    f.writeReg 13 v = { f with hsBase := BitVec.ofNat 16 (v.toNat % 64 * 1024) } ∧
    f.writeReg 16 v = { f with planeWCode := BitVec.ofNat 2 v.toNat, planeHCode := BitVec.ofNat 2 (v.toNat / 16) } ∧
    f.writeReg 17 v = { f with winHpos := BitVec.ofNat 5 v.toNat, winRight := BitVec.ofNat 1 (v.toNat / 128) } ∧
    f.writeReg 18 v = { f with winVpos := BitVec.ofNat 5 v.toNat, winDown := BitVec.ofNat 1 (v.toNat / 128) } ∧
    ∀ n : BitVec 5, n.toNat ∉ [0, 1, 2, 3, 4, 5, 7, 11, 12, 13, 16, 17, 18] → f.writeReg n v = f

/-- R64: no operation changes video memory, the palette, the scroll store or a register field. -/
def Obligations.TheBlockWritesNoExternalState : Prop :=
  ∀ (i : Instr) (s t : State), exec i s = .next t → t.ext = s.ext ∧ ∀ a, memRead1 t.ext a = memRead1 s.ext a

/-! ### The compositor -/

/-- R130: `EXPAND` returns the 8-bit channel of the formula, which is that of the table and the one
a draw writes (`expand`); nothing else changes. -/
def Obligations.ExpandReturnsTheChannel : Prop :=
  ∀ (v3 : BitVec 3) (s : State), ∃ v8 : Byte, exec (.expand v3) s = .next { s with ret := some (.channel v8) } ∧
    v8 = expand v3 ∧ v8.toNat = v3.toNat * 32 + v3.toNat * 4 + v3.toNat / 2 ∧
    [0, 36, 73, 109, 146, 182, 219, 255][v3.toNat]? = some v8.toNat

/-- R131: `DRAW` completes at every position of the buffer; it writes all four members of its cell when its priority is
at least the cell's, and otherwise nothing; no other cell and nothing else changes. -/
def Obligations.DrawWritesWhenPriorityIsAtLeastTheCells : Prop :=
  ∀ (x : Int) (color : Color) (prio : BitVec 1) (s : State), -32 ≤ x → x ≤ 351 →
    ∃ (t : State) (c : PixelCell), exec (.draw x color prio) s = .next t ∧ s.work.lb.cell x = some c ∧
      (c.prio.toNat ≤ prio.toNat → t.work.lb.cell x = some
        { r := expand color.r3, g := expand color.g3, b := expand color.b3, prio := BitVec.ofNat 8 prio.toNat }) ∧
      (prio.toNat < c.prio.toNat → t.work.lb.cell x = some c) ∧
      (∀ y, y ≠ x → t.work.lb.cell y = s.work.lb.cell y) ∧ OnlyLb s t

/-- R135: two draws at one cell whose priority before is at most the higher of the two: the higher priority wins in
either order, and of equal priorities the later. -/
def Obligations.PriorityThenOrderDecides : Prop :=
  ∀ (x : Int) (c1 c2 : Color) (p1 p2 : BitVec 1) (s : State) (c : PixelCell), s.work.lb.cell x = some c →
    c.prio.toNat ≤ p2.toNat → p1.toNat ≤ p2.toNat →
    ∃ t12 t21 u12 u21 : State,
      exec (.draw x c1 p1) s = .next t12 ∧ exec (.draw x c2 p2) t12 = .next u12 ∧
      exec (.draw x c2 p2) s = .next t21 ∧ exec (.draw x c1 p1) t21 = .next u21 ∧
      (u12.work.lb.cell x).map PixelCell.pixel = some (drawnCell c2 p2).pixel ∧
      (p1.toNat < p2.toNat → (u21.work.lb.cell x).map PixelCell.pixel = some (drawnCell c2 p2).pixel) ∧
      (p1 = p2 → (u21.work.lb.cell x).map PixelCell.pixel = some (drawnCell c1 p1).pixel)

/-- R133, R228: of any draws at one cell, in their order, what shows in the end is the last of those with the highest
priority, if no priority before was higher. -/
def Obligations.LastOfTheHighestPriorityShows : Prop :=
  ∀ (x : Int) (before after : List (Color × BitVec 1)) (col : Color) (p : BitVec 1) (s : State) (c : PixelCell),
    s.work.lb.cell x = some c → c.prio.toNat ≤ p.toNat → (∀ d ∈ before, d.2.toNat ≤ p.toNat) →
    (∀ d ∈ after, d.2.toNat < p.toNat) →
    ∃ t, drawEach x (before ++ (col, p) :: after) s = .next t ∧ t.work.lb.cell x = some (drawnCell col p)

/-- R132: no operation lowers the priority of a cell, but for the two whole-row fills and what ends a render: `CLEAR`,
`BACKDROP`, `DONE`, a `CONFIGCHECK` that raises a fault, and `RENDER`, which does all of it. -/
def Obligations.PriorityNeverDecreases : Prop :=
  ∀ (i : Instr) (s t : State), i ≠ .clear → i ≠ .backdrop → i ≠ .done → i.kind ≠ .request →
    (i = .configcheck → configFault s.ext.regf = none) → exec i s = .next t →
    ∀ y c, s.work.lb.cell y = some c → ∃ d, t.work.lb.cell y = some d ∧ c.prio.toNat ≤ d.prio.toNat

/-! ### Tiles and runs -/

/-- R141 to R144, R103, R104 (the whole-row mirror is the spec's decision D10): `PATDEC`, in either form of its tile operand,
completes when its 8 positions lie in the buffer. Position `x + i` shows pixel `k` of row `r` of the tile, `k` being `i`, or
`7 - i` with the horizontal flip, and `r` being `subrow`, or `7 - subrow` with the vertical flip: the nibble of the byte at
`32 * tile + 4 * r + k / 2` that an even `k` has high; an index of 0 leaves the cell, any other is drawn with palette entry
`16 * palrow + index` at the entry's priority. -/
def Obligations.PatdecShowsItsEightPixels : Prop :=
  ∀ (x : Int) (n : NtEntry) (w : Word) (subrow : BitVec 3) (s : State), -32 ≤ x → x + 7 ≤ 351 →
    (∃ t, exec (.patdec x (.fields n) subrow) s = .next t ∧ CellsTurnedBy s t (tileAt s.ext n subrow x) ∧ OnlyLb s t ∧
      ∀ i < 8,
        let k := if n.hflip = 1#1 then 7 - i else i
        let r := if n.vflip = 1#1 then 7 - subrow.toNat else subrow.toNat
        let b := (memRead1 s.ext (32 * n.tile.toNat + 4 * r + k / 2)).toNat
        let index := if k % 2 = 0 then b / 16 else b % 16
        t.work.lb.cell (x + i) = (s.work.lb.cell (x + i)).map fun c =>
          let col := palRead s.ext (BitVec.ofNat 6 (16 * n.palrow.toNat + index))
          if index = 0 ∨ n.prio.toNat < c.prio.toNat then c
          else { r := expand col.r3, g := expand col.g3, b := expand col.b3, prio := BitVec.ofNat 8 n.prio.toNat }) ∧
    (∃ t, exec (.patdec x (.entry w) subrow) s = .next t ∧ OnlyLb s t ∧
      CellsTurnedBy s t (tileAt s.ext
        { tile := BitVec.ofNat 11 w.toNat, hflip := BitVec.ofNat 1 (w.toNat / 2048), vflip := BitVec.ofNat 1 (w.toNat / 4096),
          palrow := BitVec.ofNat 2 (w.toNat / 8192), prio := BitVec.ofNat 1 (w.toNat / 32768) } subrow x))

/-- R144: a tile whose 32 bytes are all 0 draws nothing, whatever its entry and wherever it stands. -/
def Obligations.EmptyTilesDrawNothing : Prop :=
  ∀ (x : Int) (n : NtEntry) (subrow : BitVec 3) (s : State),
    (∀ k < 32, memRead1 s.ext (n.tile.toNat * 32 + k) = 0#8) → exec (.patdec x (.fields n) subrow) s = .next s

/-- R150, R151: `ROWRUN` completes when its columns lie in the buffer; position `y` of them shows pixel `(y - x) mod 8`
of the entry at `addr + 2 * ((y - x) div 8)`; no column at all does nothing (R152). -/
def Obligations.RowrunShowsItsRun : Prop :=
  ∀ (x : Int) (addr : Word) (ncols : Nat) (subrow : BitVec 3) (s : State), -32 ≤ x → x + 8 * (ncols : Int) ≤ 352 →
    ∃ t, exec (.rowrun x addr ncols subrow) s = .next t ∧ OnlyLb s t ∧
      CellsTurnedBy s t (runAt s.ext subrow ncols x addr.toNat)

/-- Log 13 (the model's fault, from R52): a draw outside the 384 cells, by `DRAW` itself, faults by name. -/
def Obligations.DrawOutsideTheBufferFaults : Prop :=
  ∀ (x : Int) (color : Color) (prio : BitVec 1) (s : State), (x < -32 ∨ 351 < x) →
    exec (.draw x color prio) s = .fault .cellOutsideBuffer

/-! ### Planes and window -/

/-- R155 to R161 (row stride, pass 1 without a limit and the place of pass 2 are the spec's decisions D11, D14 and D13):
`PLANE` with two size codes that exist, 0, 1 and 3 for 32, 64 and 128 tiles, completes at every line, base and scroll, and
shows its two passes. -/
def Obligations.PlaneShowsItsTwoPasses : Prop :=
  ∀ (line : Byte) (base : Word) (hscroll vscroll : BitVec 10) (s : State) (wt ht : Nat), line.toNat < 224 →
    SizeCode s.ext.regf.planeWCode wt → SizeCode s.ext.regf.planeHCode ht →
    ∃ t, exec (.plane line base hscroll vscroll) s = .next t ∧ OnlyLb s t ∧
      CellsTurnedBy s t (planeAt s.ext wt ht line.toNat base.toNat hscroll.toNat vscroll.toNat)

/-- R162, which the spec derives from its decisions D11 and D13: on a plane 64 or 128 tiles wide (width code 1 or 3) every
visible position shows the pixel of plane column `(x - sx) mod W`. -/
def Obligations.WidePlanesAreWrappingStrips : Prop :=
  ∀ (line : Byte) (base : Word) (hscroll vscroll : BitVec 10) (s : State) (wt ht : Nat), line.toNat < 224 →
    SizeCode s.ext.regf.planeWCode wt → SizeCode s.ext.regf.planeHCode ht → s.ext.regf.planeWCode ≠ 0#2 →
    ∃ t, exec (.plane line base hscroll vscroll) s = .next t ∧ ∀ y : Int, 0 ≤ y → y < 320 →
      t.work.lb.cell y = (s.work.lb.cell y).map
        (stripAt s.ext wt ht line.toNat base.toNat hscroll.toNat vscroll.toNat y)

/-- R163, which the spec derives from its decisions D11, D13 and D14: on a plane 32 tiles wide (width code 0) the positions
below `sx + 256` show the strip; those from `sx + 256` on show the entries that follow the row in memory, at the same
sub-row. -/
def Obligations.NarrowPlanesRunPastTheirRow : Prop :=
  ∀ (line : Byte) (base : Word) (hscroll vscroll : BitVec 10) (s : State) (ht : Nat), line.toNat < 224 →
    s.ext.regf.planeWCode = 0#2 → SizeCode s.ext.regf.planeHCode ht →
    ∃ t, exec (.plane line base hscroll vscroll) s = .next t ∧ ∀ y : Int, 0 ≤ y → y < 320 →
      let sx : Int := ((hscroll.toNat % 256 : Nat) : Int)
      let v := (vscroll.toNat + line.toNat) % (ht * 8)
      (y < sx + 256 → t.work.lb.cell y = (s.work.lb.cell y).map
        (stripAt s.ext 32 ht line.toNat base.toNat hscroll.toNat vscroll.toNat y)) ∧
      (sx + 256 ≤ y → t.work.lb.cell y = (s.work.lb.cell y).map
        (tileOver s.ext (entryOf (memRead2 s.ext (base.toNat + v / 8 * 64 + 64 + 2 * ((y - sx - 256).toNat / 8))))
          (BitVec.ofNat 3 (v % 8)) ((y - sx - 256).toNat % 8)))

/-- R155, R100 (log 14): a plane with a size code of 2 has no width or height; `PLANE`, `PLANEB` and, on a line the window
does not take, `WINSEL` are refused by name. -/
def Obligations.PlaneOfAReservedSizeIsRefused : Prop :=
  ∀ (line : Byte) (s : State), line.toNat < 224 →
    (s.ext.regf.planeWCode = 2#2 ∨ s.ext.regf.planeHCode = 2#2) →
    (∀ base hscroll vscroll, exec (.plane line base hscroll vscroll) s = .refused .reservedPlaneSize) ∧
    exec (.planeb line) s = .refused .reservedPlaneSize ∧
    (¬ WindowLine s.ext.regf line → exec (.winsel line) s = .refused .reservedPlaneSize)

/-- R170, R171 (the stride of 128 bytes is the spec's decision D12): `WINDOW` completes and shows 40 columns from the
row of its line, in every state. -/
def Obligations.WindowShowsFortyColumns : Prop :=
  ∀ (line : Byte) (s : State), line.toNat < 224 →
    ∃ t, exec (.window line) s = .next t ∧ OnlyLb s t ∧
      CellsTurnedBy s t (fun y c => if 0 ≤ y ∧ y < 320 then
        tileOver s.ext (entryOf (memRead2 s.ext
          (s.ext.regf.baseW.toNat + line.toNat / 8 * 128 + 2 * (y.toNat / 8)))) (BitVec.ofNat 3 line.toNat) (y.toNat % 8) c
        else c)

/-! ### Scroll fetch -/

/-- R175 to R178 (the 4-byte slot is the spec's decision D32, where the table starts D7): `HSFETCH` returns the low 10
bits of the two fields of the slot that the scroll mode gives the line; nothing else changes. -/
def Obligations.HsfetchReturnsTheLinesPair : Prop :=
  ∀ (line : Byte) (s : State), line.toNat < 224 → ∃ (index : Nat) (a b : BitVec 10),
    exec (.hsfetch line) s = .next { s with ret := some (.scroll a b) } ∧
    (s.ext.regf.hsMode = 0#2 → index = 0) ∧ (s.ext.regf.hsMode = 1#2 → index = line.toNat % 8) ∧
    (s.ext.regf.hsMode = 2#2 → index = line.toNat / 8 * 8) ∧ (s.ext.regf.hsMode = 3#2 → index = line.toNat) ∧
    a.toNat = (memRead2 s.ext (s.ext.regf.hsBase.toNat + 4 * index)).toNat % 1024 ∧
    b.toNat = (memRead2 s.ext (s.ext.regf.hsBase.toNat + 4 * index + 2)).toNat % 1024

/-! ### Sprites -/

/-- R185, R186, R188 (the bound of 64 recorded entries and links past 63 are the spec's decision D16, the place of the link
D8): `SPRTRAV` completes in every state; the chain starts at 0, follows the 7-bit links as they stand,
and ends at an entry whose link is 0 or when it holds 64 indices; nothing else changes. -/
def Obligations.SprtravFollowsTheLinks : Prop :=
  ∀ s : State, ∃ t, exec .sprtrav s = .next t ∧ t = { s with work := { s.work with chain := t.work.chain } } ∧
    t.work.chain.head? = some 0#7 ∧ t.work.chain.length ≤ 64 ∧
    (∀ (k : Nat) (a b : BitVec 7), t.work.chain[k]? = some a → t.work.chain[k + 1]? = some b →
      b.toNat = (memRead1 s.ext (s.ext.regf.satBase.toNat + 8 * a.toNat + 3)).toNat % 128 ∧ b ≠ 0#7) ∧
    (t.work.chain.length < 64 → ∃ a, t.work.chain.getLast? = some a ∧
      (memRead1 s.ext (s.ext.regf.satBase.toNat + 8 * a.toNat + 3)).toNat % 128 = 0)

/-- R187 (the bound as the spec's decision D16 reads it): when no entry the traversal reaches links to 0, the chain
holds exactly 64 indices; and the rule's example, 0 to 5, 5 to 2, 2 to 5, is 0 once, then 5 and 2 in turn. -/
def Obligations.CyclesStopAtSixtyFour : Prop :=
  (∀ s t : State, exec .sprtrav s = .next t → (∀ i ∈ t.work.chain, sprLink s.ext i ≠ 0#7) → t.work.chain.length = 64) ∧
  (∀ s : State, sprLink s.ext 0#7 = 5#7 → sprLink s.ext 5#7 = 2#7 → sprLink s.ext 2#7 = 5#7 →
    ∃ t, exec .sprtrav s = .next t ∧
      t.work.chain = 0#7 :: ((List.replicate 31 [5#7, 2#7]).flatten ++ [5#7]))

/-- R195, R96, R100, R101 (the byte layout is the spec's decision D8, the byte order D4): `SPRDECODE` returns the six
fields of the entry's 8 bytes; nothing else changes. -/
def Obligations.SprdecodeReturnsTheSixFields : Prop :=
  ∀ (i : BitVec 7) (s : State), ∃ d : SprEntry, exec (.sprdecode i) s = .next { s with ret := some (.entry d) } ∧
    (let byte (k : Nat) : Nat := (memRead1 s.ext (s.ext.regf.satBase.toNat + 8 * i.toNat + k)).toNat
     d.y = ((byte 0 % 4 * 256 + byte 1 : Nat) : Int) - 128 ∧ d.sh = byte 2 % 4 + 1 ∧ d.sw = byte 2 / 4 % 4 + 1 ∧
     d.link.toNat = byte 3 % 128 ∧ d.ref.toNat = byte 4 * 256 + byte 5 ∧
     d.x = ((byte 6 % 4 * 256 + byte 7 : Nat) : Int) - 128)

/-- R196, R198 to R202 (chain order and what counts are the spec's decisions D17, D18 and D19): `SPRPLAN` completes on every
chain and leaves the plan of the first 16 visible sprites and the first 32 cell columns, counted from the head of the chain;
the counters are those of the plan; nothing else changes. Every planned sprite has `y ≤ line < y + 8 * sh`, and one with
cells has `-8 * sw < x < 320`. -/
def Obligations.SprplanStopsExactlyAtTheLimits : Prop :=
  ∀ (line : Byte) (s : State), line.toNat < 224 →
    ∃ t, exec (.sprplan line) s = .next t ∧
      t = { s with work := { s.work with nspr := t.work.nspr, npix := t.work.npix, plan := t.work.plan } } ∧
      t.work.plan = planOf s.ext line.toNat s.work.chain ∧ t.work.nspr = t.work.plan.length ∧
      t.work.npix = 8 * (t.work.plan.map (·.cells)).sum ∧
      ∀ q ∈ t.work.plan,
        let d := sprFields s.ext q.index
        (d.y ≤ (line.toNat : Int) ∧ (line.toNat : Int) < d.y + 8 * (d.sh : Int)) ∧
        (q.cells ≠ 0 → -8 * (d.sw : Int) < d.x ∧ d.x < 320)

/-- R54, R55, R199, R201: the bounds of what `SPRPLAN` leaves. -/
def Obligations.SprplanKeepsTheBudgets : Prop :=
  ∀ (line : Byte) (s t : State), exec (.sprplan line) s = .next t →
    t.work.nspr ≤ 16 ∧ t.work.npix ≤ 256 ∧ t.work.npix % 8 = 0 ∧ t.work.plan.length ≤ 16 ∧
    ∀ q ∈ t.work.plan, q.cells ≤ 4 ∧ q.index ∈ s.work.chain

/-- R204 to R207 (cell positions and the tile modulus are the spec's decisions D34 and D20): `SPRDRAW` completes on every
plan whose cells lie in the buffer, and draws its sprites from the last of the plan to the first. For a plan that no
`SPRPLAN` of the line makes (a sprite not on the line, more cells than its width) what it draws is the model's choice
(log 20, DESIGN CHOICE). -/
def Obligations.SprdrawDrawsTheTailFirst : Prop :=
  ∀ (line : Byte) (s : State), line.toNat < 224 →
    (∀ q ∈ s.work.plan, q.cells = 0 ∨
      (-32 ≤ (sprFields s.ext q.index).x ∧ (sprFields s.ext q.index).x + 8 * (q.cells : Int) ≤ 352)) →
    ∃ t, exec (.sprdraw line) s = .next t ∧ OnlyLb s t ∧
      CellsTurnedBy s t (spritesAt s.ext line.toNat s.work.plan)

/-- R196, R197, R204 to R207: what a cell column of a sprite is decoded with. In every one the flips, the palette row and the
priority are bits 11, 12, 14:13 and 15 of the sprite's reference. On a line the sprite is visible on, the tile of screen cell
column `p` is that of pattern column `p`, or `sw - 1 - p` with the horizontal flip, and of the cell row the vertical flip
gives, modulo 2048 (the spec's decision D20). -/
def Obligations.CellColumnsTakeColumnMajorTiles : Prop :=
  ∀ (d : SprEntry) (line p : Nat),
    (let n := cellEntry d line p
     n.tile = cellTile d line p ∧ n.hflip.toNat = d.ref.toNat / 2048 % 2 ∧ n.vflip.toNat = d.ref.toNat / 4096 % 2 ∧
     n.palrow.toNat = d.ref.toNat / 8192 % 4 ∧ n.prio.toNat = d.ref.toNat / 32768) ∧
    (d.y ≤ (line : Int) → (line : Int) < d.y + 8 * (d.sh : Int) → p < d.sw →
      ∃ (pc pr dy : Nat), (dy : Int) = (line : Int) - d.y ∧
        pc = (if d.ref.toNat / 2048 % 2 = 1 then d.sw - 1 - p else p) ∧
        pr = (if d.ref.toNat / 4096 % 2 = 1 then d.sh - 1 - dy / 8 else dy / 8) ∧
        (cellTile d line p).toNat = (d.ref.toNat % 2048 + d.sh * pc + pr) % 2048 ∧
        (cellSubrow d line).toNat = dy % 8)

/-! ### The stages -/

/-- R218, R217: `CLEAR` sets all 384 cells to (0, 0, 0, 0) and goes to DisplayGate. That it does so from any stage is
the model's (log 4, DESIGN CHOICE). -/
def Obligations.ClearBlanksEveryCell : Prop :=
  ∀ s : State, ∃ t, exec .clear s = .next t ∧ OnlyLbAndStage s t .dispGate ∧
    ∀ x : Int, -32 ≤ x → x ≤ 351 → t.work.lb.cell x = some { r := 0, g := 0, b := 0, prio := 0 }

/-- R219, R221, R217 and R57: the two gates read one field each and move the stage, from any stage (log 4, DESIGN
CHOICE); nothing else changes. -/
def Obligations.GatesMoveTheStageOnly : Prop :=
  ∀ s : State,
    (s.ext.regf.dispDisable = 1#1 → exec .dispgate s = .next { s with stage := some .done }) ∧
    (s.ext.regf.dispDisable = 0#1 → exec .dispgate s = .next { s with stage := some .backdrop }) ∧
    (s.ext.regf.planeEn = 0#1 → exec .planegate s = .next { s with stage := some .done }) ∧
    (s.ext.regf.planeEn = 1#1 → exec .planegate s = .next { s with stage := some .configCheck })

/-- R220, R217 (a direct write: the spec's decision D28): `BACKDROP` gives all 384 cells the expanded backdrop colour at
priority 0, whatever they hold, and goes to PlaneGate, from any stage (log 4, DESIGN CHOICE). -/
def Obligations.BackdropFillsEveryCell : Prop :=
  ∀ s : State, ∃ t, exec .backdrop s = .next t ∧ OnlyLbAndStage s t .planeGate ∧
    ∃ col, s.ext.pal.colors[s.ext.regf.backdrop.toNat]? = some col ∧
    ∀ x : Int, -32 ≤ x → x ≤ 351 →
      t.work.lb.cell x = some { r := expand col.r3, g := expand col.g3, b := expand col.b3, prio := 0 }

/-- R222, R217, R241, R245 (order and place are the spec's decision D21, the numbers D2): the four tests of
`CONFIGCHECK` in their order, at any stage (log 4, DESIGN CHOICE); the first that fails is the fault of the response,
with its status and cause; if none fails the stage is ScrollFetch and nothing else changes. -/
def Obligations.ConfigCheckRaisesTheFirstFault : Prop :=
  ∀ s : State,
    let f := s.ext.regf
    let raises (status cause : Nat) : Prop := ∃ t r, exec .configcheck s = .next t ∧ RenderEnded s t ∧
      t.response = some r ∧ r.status = status ∧ r.cause = cause ∧ ∀ row, r ≠ .row row
    (f.interlace ≠ 0#2 → raises 1 1) ∧
    (f.interlace = 0#2 → f.vsColumn = 1#1 → raises 1 2) ∧
    (f.interlace = 0#2 → f.vsColumn = 0#1 → f.planeWCode = 2#2 → raises 2 3) ∧
    (f.interlace = 0#2 → f.vsColumn = 0#1 → f.planeWCode ≠ 2#2 → f.planeHCode = 2#2 → raises 2 4) ∧
    (f.interlace = 0#2 → f.vsColumn = 0#1 → f.planeWCode ≠ 2#2 → f.planeHCode ≠ 2#2 →
      exec .configcheck s = .next { s with stage := some .scrollFetch })

/-- R223, R217: `SCROLLFETCH` latches the pair that `HSFETCH` returns and the two values of the scroll store, and goes
to PlaneB, from any stage (log 4, DESIGN CHOICE); nothing else changes. -/
def Obligations.ScrollFetchLatchesFourValues : Prop :=
  ∀ (line : Byte) (s : State), line.toNat < 224 → ∃ a b : BitVec 10,
    exec (.hsfetch line) s = .next { s with ret := some (.scroll a b) } ∧
    exec (.scrollfetch line) s = .next
      { s with stage := some .planeB, work := { s.work with hsA := a, hsB := b, vsA := s.ext.vsA, vsB := s.ext.vsB } }

/-- R224, R217: `PLANEB` is `PLANE(line, BASE_B, HSB, VSB)` and goes to WindowOrPlaneA, from any stage (log 4, DESIGN
CHOICE). -/
def Obligations.PlaneBStageDrawsPlaneB : Prop :=
  ∀ (line : Byte) (s : State), line.toNat < 224 → s.ext.regf.planeWCode ≠ 2#2 → s.ext.regf.planeHCode ≠ 2#2 →
    ∃ t, exec (.plane line s.ext.regf.baseB s.work.hsB s.work.vsB) s = .next t ∧
      exec (.planeb line) s = .next { t with stage := some .winOrPlaneA }

/-- R225, R217 (that a threshold of 0 is none is the spec's decision D15): which of the two `WINSEL` draws: the window
when a threshold is configured and the line is at or past it (down-trigger) or up to it, inclusive (up-trigger),
whatever the size codes hold, and otherwise plane A; it goes to Sprites, from any stage (log 4, DESIGN CHOICE). -/
def Obligations.WindowReplacesPlaneAOnWholeLines : Prop :=
  ∀ (line : Byte) (s : State), line.toNat < 224 →
    let f := s.ext.regf
    (WindowLine f line →
      ∃ t, exec (.window line) s = .next t ∧ exec (.winsel line) s = .next { t with stage := some .sprites }) ∧
    (¬ WindowLine f line → f.planeWCode ≠ 2#2 → f.planeHCode ≠ 2#2 →
      ∃ t, exec (.plane line f.baseA s.work.hsA s.work.vsA) s = .next t ∧
        exec (.winsel line) s = .next { t with stage := some .sprites })

/-- R226, R208, R217: `SPRITES` completes in every state, is `SPRTRAV`, `SPRPLAN` and `SPRDRAW` in turn, and goes to
Done, from any stage (log 4, DESIGN CHOICE). -/
def Obligations.SpritesStageIsItsThreeOperations : Prop :=
  ∀ (line : Byte) (s : State), line.toNat < 224 → ∃ t1 t2 t3 : State,
    exec .sprtrav s = .next t1 ∧ exec (.sprplan line) t1 = .next t2 ∧ exec (.sprdraw line) t2 = .next t3 ∧
    exec (.sprites line) s = .next { t3 with stage := some .done } ∧ t3.ext = s.ext

/-- R227, R98, R241 (that OK is status 0 and cause 0 is the spec's decision D2): `DONE` answers with the colours of the
cells 0 to 319, the leftmost first, status OK, and ends the render, from any stage (log 4, DESIGN CHOICE). -/
def Obligations.DoneDeliversTheVisibleCells : Prop :=
  ∀ s : State, ∃ t, exec .done s = .next t ∧ RenderEnded s t ∧ (∀ r, t.response = some r → r.status = 0 ∧ r.cause = 0) ∧
    ∃ row : Row, t.response = some (.row row) ∧
      ∀ k : Nat, k < 320 → row.pixels[k]? = (s.work.lb.cell (k : Int)).map fun c => Pixel.mk c.r c.g c.b

/-- R113, R216 (the spec's decision D23, which speaks of the request; for the other operations with a line operand the
refusal is the model's, log 12): every one is refused at a line of 224 or more, the request on an idle block. -/
def Obligations.LinesPastTheScreenAreRefused : Prop :=
  ∀ (line : Byte) (s : State), 224 ≤ line.toNat →
    (s.stage = none → exec (.render line) s = .refused .lineOutOfRange) ∧
    (∀ base hscroll vscroll, exec (.plane line base hscroll vscroll) s = .refused .lineOutOfRange) ∧
    ∀ i ∈ [Instr.scrollfetch line, .planeb line, .winsel line, .sprites line, .window line, .hsfetch line, .sprplan line,
      .sprdraw line], exec i s = .refused .lineOutOfRange

/-! ### The render -/

/-- R215, R228: the whole render. On an idle block a request for a line of 0 to 223 completes, in every state of the
stores: with the fault the configuration raises, or with the row whose pixels are those of the layers, back to front. It
rests on the spec's decisions of every layer: D21 and D22 (faults after the gates, without a row), D28 (backdrop), D3 and D4
(addresses, byte order), D10 (mirror), D11, D13 and D14 (planes), D12 and D15 (window), D7 and D32 (scroll and sprite
tables), D30 (scroll store), D8, D16 to D20 and D34 (sprites), with the open parameters at their defaults (log 10,
PRESUMED). -/
def Obligations.RenderAnswersWithTheLayeredPicture : Prop :=
  ∀ (line : Byte) (s : State), s.stage = none → line.toNat < 224 →
    ∃ t, exec (.render line) s = .next t ∧ RenderEnded s t ∧
      match renderFault s.ext with
      | some c => t.response = some (.fault c)
      | none => RowIs t (rowPixel s.ext line.toNat)

/-- R215, R217, R7 (stages as steps are the model's, log 4): the atomic render is the ten stages run one step at a time from
Clear. After an early exit the steps that are left find an idle block and change nothing, which is the model's too (log 22,
DEDUCED from R256). -/
def Obligations.RenderIsItsStagesInTurn : Prop :=
  ∀ (line : Byte) (s : State), s.stage = none → s.call = [] → s.inputs = [] → line.toNat < 224 →
    steps 10 { s with stage := some .clear, work := { s.work with line := line } } =
      exec (.render line) s

/-- R219: a disabled display answers with 320 black pixels, whatever else the stores hold. -/
def Obligations.DisabledDisplayIsBlack : Prop :=
  ∀ (line : Byte) (s : State), s.stage = none → line.toNat < 224 → s.ext.regf.dispDisable = 1#1 →
    ∃ t, exec (.render line) s = .next t ∧ RowIs t (fun _ => { r := 0, g := 0, b := 0 })

/-- R221: with the planes disabled the answer is 320 pixels of the backdrop, and no fault, whatever the codes hold. -/
def Obligations.DisabledPlanesShowTheBackdrop : Prop :=
  ∀ (line : Byte) (s : State), s.stage = none → line.toNat < 224 → s.ext.regf.dispDisable = 0#1 →
    s.ext.regf.planeEn = 0#1 → ∃ t col, exec (.render line) s = .next t ∧
      s.ext.pal.colors[s.ext.regf.backdrop.toNat]? = some col ∧
      RowIs t (fun _ => { r := expand col.r3, g := expand col.g3, b := expand col.b3 })

/-- R244 (the place after the gates is the spec's decision D21, status 0 for OK D2): a render faults if and only if the
display and the planes are enabled and one of the four conditions holds; whether it does depends neither on the line nor
on memory, palette or scroll store. -/
def Obligations.RenderFaultsExactlyOnTheFourConditions : Prop :=
  ∀ (line : Byte) (s : State), s.stage = none → line.toNat < 224 →
    let f := s.ext.regf
    ∃ t r, exec (.render line) s = .next t ∧ t.response = some r ∧
      (r.status ≠ 0 ↔ f.dispDisable = 0#1 ∧ f.planeEn = 1#1 ∧
        (f.interlace ≠ 0#2 ∨ f.vsColumn = 1#1 ∨ f.planeWCode = 2#2 ∨ f.planeHCode = 2#2))

/-- R246 (the spec's decision D22), R247: after a fault the block is idle, nothing of the collaborator's has changed,
and the next request is served like any other: it gets the answer it would have got on the state before. -/
def Obligations.FaultsLeaveNothingBehind : Prop :=
  ∀ (line next : Byte) (s t : State) (c : Cause), exec (.render line) s = .next t → t.response = some (.fault c) →
    next.toNat < 224 →
    RenderEnded s t ∧ ∃ u v, exec (.render next) t = .next u ∧ exec (.render next) s = .next v ∧ u.response = v.response

/-- R229: what a render answers depends on the line and the collaborator's stores alone; the transient storage, the
last response and every field of the model's own may differ. -/
def Obligations.ResponsesDependOnTheSnapshotAlone : Prop :=
  ∀ (line : Byte) (s s' : State), s.stage = none → s'.stage = none → s.ext = s'.ext → line.toNat < 224 →
    ∃ t t', exec (.render line) s = .next t ∧ exec (.render line) s' = .next t' ∧ t.response = t'.response

/-- R43 (the spec's decision D29), R225: the horizontal window fields change no response. -/
def Obligations.HorizontalWindowFieldsChangeNothing : Prop :=
  ∀ (line : Byte) (s : State) (h : BitVec 5) (r : BitVec 1), s.stage = none → line.toNat < 224 →
    ∃ t t', exec (.render line) s = .next t ∧
      exec (.render line) { s with ext := { s.ext with regf := { s.ext.regf with winHpos := h, winRight := r } } } = .next t' ∧
      t.response = t'.response

/-- R34, which the spec derives from R144 and R220: a palette entry whose index in its row is 0 changes no response
unless it is the backdrop's. -/
def Obligations.ColourZeroShowsOnlyAsBackdrop : Prop :=
  ∀ (line : Byte) (s : State) (i : BitVec 6) (c : Color), s.stage = none → line.toNat < 224 → i.toNat % 16 = 0 →
    i ≠ s.ext.regf.backdrop →
    ∃ t t', exec (.render line) s = .next t ∧
      exec (.render line) { s with ext := s.ext.write (.pal i c) } = .next t' ∧ t.response = t'.response

/-- R172, R179: on a line of the window plane A shows nowhere. Its base and its vertical scroll change no response; and its
horizontal scroll value, which is fetched and latched in HSA all the same, changes none: a render past ScrollFetch (stages as
steps are the model's, log 4) answers the same whatever HSA, VSA and the base hold. -/
def Obligations.WindowLinesIgnorePlaneA : Prop :=
  (∀ (line : Byte) (s : State) (base : Word) (v : BitVec 10), s.stage = none → line.toNat < 224 →
    WindowLine s.ext.regf line →
    ∃ t t', exec (.render line) s = .next t ∧
      exec (.render line) { s with ext := { s.ext with vsA := v, regf := { s.ext.regf with baseA := base } } } = .next t' ∧
      t.response = t'.response) ∧
  ∀ (s : State) (base : Word) (h v : BitVec 10), s.stage = some .planeB → s.call = [] → s.inputs = [] →
    s.work.line.toNat < 224 → WindowLine s.ext.regf s.work.line → s.ext.regf.planeWCode ≠ 2#2 →
    s.ext.regf.planeHCode ≠ 2#2 →
    ∃ t t', steps 4 s = .next t ∧
      steps 4 { s with work := { s.work with hsA := h, vsA := v },
                       ext := { s.ext with regf := { s.ext.regf with baseA := base } } } = .next t' ∧
      t.stage = none ∧ t.response.isSome = true ∧ t.response = t'.response

/-- R52, which the spec derives, and R209: no render, no stage and no layer draws outside the line buffer, in any state. -/
def Obligations.NoRenderDrawsOutsideTheBuffer : Prop :=
  ∀ (line : Byte) (s : State) (r : Fault), exec (.render line) s ≠ .fault r ∧ exec (.planeb line) s ≠ .fault r ∧
    exec (.winsel line) s ≠ .fault r ∧ exec (.sprites line) s ≠ .fault r ∧ exec (.window line) s ≠ .fault r ∧
    ∀ base hscroll vscroll, exec (.plane line base hscroll vscroll) s ≠ .fault r

/-! ### The invariant -/

/-- R30, R51, R216 to R222: every step keeps the invariant of Safety.lean: video memory in canonical form, priorities 0
or 1 once Clear has run, and for a render past a gate or past ConfigCheck the configuration that let it pass. -/
def Obligations.EveryStepKeepsTheInvariant : Prop := ∀ s t : State, Inv s → step s = .next t → Inv t

/-- The state after reset has the invariant. -/
def Obligations.ResetHasTheInvariant : Prop := Inv State.reset

/-- R215 to R222, R52: a render in progress goes on: from every state with the invariant, when the outside keeps its
duties and no called operation stands alone, the step completes, and after at most ten steps the render has ended with a
response. That a stage is a step is the model's (log 4), and so is that the steps to spare find an idle block and change
nothing (log 22, DEDUCED from R256). -/
def Obligations.RendersInProgressEnd : Prop :=
  ∀ (s : State) (st : Stage), Inv s → s.stage = some st → s.call = [] → s.inputs = [] →
    completes (step s) ∧
    ∃ t, steps 10 s = .next t ∧ t.stage = none ∧ t.response.isSome = true ∧ t.ext = s.ext

/-! ### Bytes that end early -/

/-- Log 1 (the operand bytes and this refusal are the model's; the codes are R107's): a called operation whose operand bytes
end early is refused by name. -/
def Obligations.BytesThatEndEarlyAreRefused : Prop :=
  ∀ (s : State) (b : Byte) (bs : List Byte) (n : Nat), s.inputs = [] → s.call = b :: bs →
    (b.toNat % 32, n) ∈ operandCounts → bs.length < n → step s = .refused .truncatedOperation
end

