-- ==== Sys2Proof/Laws/Decode.lean ====
section
/-! SUPPORT. The fields of the encoding, each read back from what the encoder writes, and the fields of an entry as
numbers. -/

namespace Sys2Proof

theorem field_toNat {w : Nat} (v : BitVec w) (start width : Nat) :
    (field v start width).toNat = v.toNat / 2 ^ start % 2 ^ width := by
  simp [field, Nat.shiftRight_eq_div_pow]

/-- R10: a field as the low bits of a quotient. -/
theorem field_eq_ofNat {w : Nat} (v : BitVec w) (start width : Nat) :
    field v start width = BitVec.ofNat width (v.toNat / 2 ^ start) := by
  apply BitVec.eq_of_toNat_eq; simp [field_toNat]

theorem append_toNat {m n : Nat} (a : BitVec m) (b : BitVec n) : (a ++ b).toNat = 2 ^ n * a.toNat + b.toNat := by
  rw [BitVec.toNat_append, Nat.shiftLeft_eq, Nat.mul_comm, ← Nat.two_pow_add_eq_or_of_lt b.isLt]

theorem word16_toNat (hi lo : Byte) : (word16 hi lo).toNat = 256 * hi.toNat + lo.toNat := by
  unfold word16; rw [append_toNat]; rfl

theorem word16_bytes (w : Word) : word16 (hiByte w) (loByte w) = w := by
  apply BitVec.eq_of_toNat_eq
  have := w.isLt
  rw [word16_toNat, hiByte, loByte, field_toNat, field_toNat]; omega

theorem decodeX_bytes {x : Int} (h : -32 ≤ x) (h' : x ≤ 479) : decodeX (hiByte (encodeX x)) (loByte (encodeX x)) = x := by
  unfold decodeX
  rw [word16_bytes, field_toNat, encodeX, BitVec.toNat_ofInt]
  omega

theorem field_setWidth {w v : Nat} (h : w ≤ v) (a : BitVec w) : field (a.setWidth v) 0 w = a := by
  apply BitVec.eq_of_toNat_eq
  have := a.isLt
  rw [field_toNat, BitVec.toNat_setWidth, Nat.mod_eq_of_lt (lt_of_lt_of_le this (Nat.pow_le_pow_right (by omega) h))]
  simp

theorem Color.unpack_pack (c : Color) : Color.unpack c.pack = c := by
  obtain ⟨r, g, b⟩ := c
  have key : ∀ r g b : BitVec 3, Color.unpack (Color.pack ⟨r, g, b⟩) = ⟨r, g, b⟩ := by decide +kernel
  exact key r g b

theorem NtEntry.toWord_toNat (n : NtEntry) : n.toWord.toNat =
    n.tile.toNat + 2048 * n.hflip.toNat + 4096 * n.vflip.toNat + 8192 * n.palrow.toNat + 32768 * n.prio.toNat := by
  unfold NtEntry.toWord
  simp only [append_toNat]; ring

theorem NtEntry.ofWord_toWord (n : NtEntry) : NtEntry.ofWord n.toWord = n := by
  have h := n.toWord_toNat
  have h1 := n.tile.isLt
  have h2 := n.hflip.isLt
  have h3 := n.vflip.isLt
  have h4 := n.palrow.isLt
  have h5 := n.prio.isLt
  obtain ⟨a, b, c, d, e⟩ := n
  simp only [NtEntry.ofWord, NtEntry.mk.injEq]
  simp only at h h1 h2 h3 h4 h5
  refine ⟨?_, ?_, ?_, ?_, ?_⟩ <;> apply BitVec.eq_of_toNat_eq <;> rw [field_toNat, h] <;> omega

end Sys2Proof
end

