-- ==== Sys2Proof/Laws/LineBuf.lean ====
section
/-! SUPPORT. The cells of the line buffer: which positions have one, a cell after a write or a fill, and the row. -/

namespace Sys2Proof.Machine

theorem inBuffer_iff {x : Int} : inBuffer x = true ↔ -32 ≤ x ∧ x ≤ 351 := by simp [inBuffer]

theorem LineBuf.cell_eq_none {lb : LineBuf} {x : Int} (h : ¬(-32 ≤ x ∧ x ≤ 351)) : lb.cell x = none := by
  simp only [LineBuf.cell, inBuffer, decide_eq_false h]; rfl

theorem LineBuf.cell_of_mem (lb : LineBuf) {x : Int} (h : -32 ≤ x ∧ x ≤ 351) : ∃ c, lb.cell x = some c := by
  have hlt : (x + 32).toNat < lb.cells.length := by rw [lb.full, Config.bufW]; omega
  exact ⟨lb.cells[(x + 32).toNat], by simp [LineBuf.cell, inBuffer, h, hlt]⟩

theorem LineBuf.mem_of_cell {lb : LineBuf} {x : Int} {c : PixelCell} (h : lb.cell x = some c) : -32 ≤ x ∧ x ≤ 351 := by
  by_contra hx; simp [LineBuf.cell_eq_none hx] at h

/-- A write changes its own cell and no other. -/
theorem LineBuf.cell_put (lb : LineBuf) {x : Int} (hx : -32 ≤ x ∧ x ≤ 351) (c : PixelCell) (y : Int) :
    (lb.put x c).cell y = if y = x then some c else lb.cell y := by
  by_cases hy : -32 ≤ y ∧ y ≤ 351
  · have hlt : (x + 32).toNat < lb.cells.length := by rw [lb.full, Config.bufW]; omega
    by_cases h : y = x
    · subst h; simp [LineBuf.put, LineBuf.cell, inBuffer, hx, hlt]
    · have hne : (x + 32).toNat ≠ (y + 32).toNat := by omega
      simp [LineBuf.put, LineBuf.cell, inBuffer, hx, hy, h, hne]
  · have h : y ≠ x := by rintro rfl; exact hy hx
    simp [LineBuf.cell_eq_none hy, h]

/-- A fill gives every position its cell. -/
theorem LineBuf.cell_fill (c : PixelCell) {x : Int} (hx : -32 ≤ x ∧ x ≤ 351) : (LineBuf.fill c).cell x = some c := by
  have hlt : (x + 32).toNat < Config.bufW := by unfold Config.bufW; omega
  simp only [LineBuf.cell, inBuffer, hx, and_self, decide_true, if_true, LineBuf.fill]
  exact List.getElem?_replicate_of_lt hlt

/-- R227: pixel `k` of the row is the cell at `k`, colour only. -/
theorem LineBuf.row_pixel (lb : LineBuf) {k : Nat} (hk : k < 320) : lb.row.pixels[k]? = (lb.cell k).map PixelCell.pixel := by
  have hx : (-32 : Int) ≤ k ∧ (k : Int) ≤ 351 := by omega
  have h : ((k : Int) + 32).toNat = 32 + k := by omega
  simp [LineBuf.row, LineBuf.cell, inBuffer, hx, h, Config.pad, Config.screenW, hk]

/-- Two rows with the same 320 pixels are the same row. -/
theorem Row.ext_pixels {a b : Row} (h : ∀ k < 320, a.pixels[k]? = b.pixels[k]?) : a = b := by
  obtain ⟨pa, ha⟩ := a
  obtain ⟨pb, hb⟩ := b
  have : pa = pb := by
    refine List.ext_getElem? fun k => ?_
    by_cases hk : k < 320
    · exact h k hk
    · rw [List.getElem?_eq_none (by rw [ha, Config.screenW]; omega), List.getElem?_eq_none (by rw [hb, Config.screenW]; omega)]
  subst this; rfl

end Sys2Proof.Machine
end

