-- ==== Sys2Proof/Laws/State.lean ====
section
/-! SUPPORT. One lemma per field per update of the state, true by unfolding the update once. -/

namespace Sys2Proof.Machine

variable (s : State)

/-! ### `State.setLb` -/

@[simp] theorem State.setLb_ext (lb : LineBuf) : (s.setLb lb).ext = s.ext := rfl
@[simp] theorem State.setLb_lb (lb : LineBuf) : (s.setLb lb).work.lb = lb := rfl
@[simp] theorem State.setLb_chain (lb : LineBuf) : (s.setLb lb).work.chain = s.work.chain := rfl
@[simp] theorem State.setLb_nspr (lb : LineBuf) : (s.setLb lb).work.nspr = s.work.nspr := rfl
@[simp] theorem State.setLb_npix (lb : LineBuf) : (s.setLb lb).work.npix = s.work.npix := rfl
@[simp] theorem State.setLb_plan (lb : LineBuf) : (s.setLb lb).work.plan = s.work.plan := rfl
@[simp] theorem State.setLb_hsA (lb : LineBuf) : (s.setLb lb).work.hsA = s.work.hsA := rfl
@[simp] theorem State.setLb_hsB (lb : LineBuf) : (s.setLb lb).work.hsB = s.work.hsB := rfl
@[simp] theorem State.setLb_vsA (lb : LineBuf) : (s.setLb lb).work.vsA = s.work.vsA := rfl
@[simp] theorem State.setLb_vsB (lb : LineBuf) : (s.setLb lb).work.vsB = s.work.vsB := rfl
@[simp] theorem State.setLb_line (lb : LineBuf) : (s.setLb lb).work.line = s.work.line := rfl
@[simp] theorem State.setLb_stage (lb : LineBuf) : (s.setLb lb).stage = s.stage := rfl
@[simp] theorem State.setLb_response (lb : LineBuf) : (s.setLb lb).response = s.response := rfl
@[simp] theorem State.setLb_call (lb : LineBuf) : (s.setLb lb).call = s.call := rfl
@[simp] theorem State.setLb_ret (lb : LineBuf) : (s.setLb lb).ret = s.ret := rfl
@[simp] theorem State.setLb_inputs (lb : LineBuf) : (s.setLb lb).inputs = s.inputs := rfl
@[simp] theorem State.setLb_freeCount (lb : LineBuf) : (s.setLb lb).freeCount = s.freeCount := rfl

/-! ### `State.setChain` -/

@[simp] theorem State.setChain_ext (c : List (BitVec 7)) : (s.setChain c).ext = s.ext := rfl
@[simp] theorem State.setChain_lb (c : List (BitVec 7)) : (s.setChain c).work.lb = s.work.lb := rfl
@[simp] theorem State.setChain_chain (c : List (BitVec 7)) : (s.setChain c).work.chain = c := rfl
@[simp] theorem State.setChain_nspr (c : List (BitVec 7)) : (s.setChain c).work.nspr = s.work.nspr := rfl
@[simp] theorem State.setChain_npix (c : List (BitVec 7)) : (s.setChain c).work.npix = s.work.npix := rfl
@[simp] theorem State.setChain_plan (c : List (BitVec 7)) : (s.setChain c).work.plan = s.work.plan := rfl
@[simp] theorem State.setChain_hsA (c : List (BitVec 7)) : (s.setChain c).work.hsA = s.work.hsA := rfl
@[simp] theorem State.setChain_hsB (c : List (BitVec 7)) : (s.setChain c).work.hsB = s.work.hsB := rfl
@[simp] theorem State.setChain_vsA (c : List (BitVec 7)) : (s.setChain c).work.vsA = s.work.vsA := rfl
@[simp] theorem State.setChain_vsB (c : List (BitVec 7)) : (s.setChain c).work.vsB = s.work.vsB := rfl
@[simp] theorem State.setChain_line (c : List (BitVec 7)) : (s.setChain c).work.line = s.work.line := rfl
@[simp] theorem State.setChain_stage (c : List (BitVec 7)) : (s.setChain c).stage = s.stage := rfl
@[simp] theorem State.setChain_response (c : List (BitVec 7)) : (s.setChain c).response = s.response := rfl
@[simp] theorem State.setChain_call (c : List (BitVec 7)) : (s.setChain c).call = s.call := rfl
@[simp] theorem State.setChain_ret (c : List (BitVec 7)) : (s.setChain c).ret = s.ret := rfl
@[simp] theorem State.setChain_inputs (c : List (BitVec 7)) : (s.setChain c).inputs = s.inputs := rfl
@[simp] theorem State.setChain_freeCount (c : List (BitVec 7)) : (s.setChain c).freeCount = s.freeCount := rfl

/-! ### `State.setPlan` -/

@[simp] theorem State.setPlan_ext (n p : Nat) (l : List PlanEntry) : (s.setPlan n p l).ext = s.ext := rfl
@[simp] theorem State.setPlan_lb (n p : Nat) (l : List PlanEntry) : (s.setPlan n p l).work.lb = s.work.lb := rfl
@[simp] theorem State.setPlan_chain (n p : Nat) (l : List PlanEntry) : (s.setPlan n p l).work.chain = s.work.chain := rfl
@[simp] theorem State.setPlan_nspr (n p : Nat) (l : List PlanEntry) : (s.setPlan n p l).work.nspr = n := rfl
@[simp] theorem State.setPlan_npix (n p : Nat) (l : List PlanEntry) : (s.setPlan n p l).work.npix = p := rfl
@[simp] theorem State.setPlan_plan (n p : Nat) (l : List PlanEntry) : (s.setPlan n p l).work.plan = l := rfl
@[simp] theorem State.setPlan_hsA (n p : Nat) (l : List PlanEntry) : (s.setPlan n p l).work.hsA = s.work.hsA := rfl
@[simp] theorem State.setPlan_hsB (n p : Nat) (l : List PlanEntry) : (s.setPlan n p l).work.hsB = s.work.hsB := rfl
@[simp] theorem State.setPlan_vsA (n p : Nat) (l : List PlanEntry) : (s.setPlan n p l).work.vsA = s.work.vsA := rfl
@[simp] theorem State.setPlan_vsB (n p : Nat) (l : List PlanEntry) : (s.setPlan n p l).work.vsB = s.work.vsB := rfl
@[simp] theorem State.setPlan_line (n p : Nat) (l : List PlanEntry) : (s.setPlan n p l).work.line = s.work.line := rfl
@[simp] theorem State.setPlan_stage (n p : Nat) (l : List PlanEntry) : (s.setPlan n p l).stage = s.stage := rfl
@[simp] theorem State.setPlan_response (n p : Nat) (l : List PlanEntry) : (s.setPlan n p l).response = s.response := rfl
@[simp] theorem State.setPlan_call (n p : Nat) (l : List PlanEntry) : (s.setPlan n p l).call = s.call := rfl
@[simp] theorem State.setPlan_ret (n p : Nat) (l : List PlanEntry) : (s.setPlan n p l).ret = s.ret := rfl
@[simp] theorem State.setPlan_inputs (n p : Nat) (l : List PlanEntry) : (s.setPlan n p l).inputs = s.inputs := rfl
@[simp] theorem State.setPlan_freeCount (n p : Nat) (l : List PlanEntry) : (s.setPlan n p l).freeCount = s.freeCount := rfl

/-! ### `State.setLatches` -/

@[simp] theorem State.setLatches_ext (a b c d : BitVec 10) : (s.setLatches a b c d).ext = s.ext := rfl
@[simp] theorem State.setLatches_lb (a b c d : BitVec 10) : (s.setLatches a b c d).work.lb = s.work.lb := rfl
@[simp] theorem State.setLatches_chain (a b c d : BitVec 10) : (s.setLatches a b c d).work.chain = s.work.chain := rfl
@[simp] theorem State.setLatches_nspr (a b c d : BitVec 10) : (s.setLatches a b c d).work.nspr = s.work.nspr := rfl
@[simp] theorem State.setLatches_npix (a b c d : BitVec 10) : (s.setLatches a b c d).work.npix = s.work.npix := rfl
@[simp] theorem State.setLatches_plan (a b c d : BitVec 10) : (s.setLatches a b c d).work.plan = s.work.plan := rfl
@[simp] theorem State.setLatches_hsA (a b c d : BitVec 10) : (s.setLatches a b c d).work.hsA = a := rfl
@[simp] theorem State.setLatches_hsB (a b c d : BitVec 10) : (s.setLatches a b c d).work.hsB = b := rfl
@[simp] theorem State.setLatches_vsA (a b c d : BitVec 10) : (s.setLatches a b c d).work.vsA = c := rfl
@[simp] theorem State.setLatches_vsB (a b c d : BitVec 10) : (s.setLatches a b c d).work.vsB = d := rfl
@[simp] theorem State.setLatches_line (a b c d : BitVec 10) : (s.setLatches a b c d).work.line = s.work.line := rfl
@[simp] theorem State.setLatches_stage (a b c d : BitVec 10) : (s.setLatches a b c d).stage = s.stage := rfl
@[simp] theorem State.setLatches_response (a b c d : BitVec 10) : (s.setLatches a b c d).response = s.response := rfl
@[simp] theorem State.setLatches_call (a b c d : BitVec 10) : (s.setLatches a b c d).call = s.call := rfl
@[simp] theorem State.setLatches_ret (a b c d : BitVec 10) : (s.setLatches a b c d).ret = s.ret := rfl
@[simp] theorem State.setLatches_inputs (a b c d : BitVec 10) : (s.setLatches a b c d).inputs = s.inputs := rfl
@[simp] theorem State.setLatches_freeCount (a b c d : BitVec 10) : (s.setLatches a b c d).freeCount = s.freeCount := rfl

/-! ### `State.enterRender` -/

@[simp] theorem State.enterRender_ext (l : Byte) : (s.enterRender l).ext = s.ext := rfl
@[simp] theorem State.enterRender_lb (l : Byte) : (s.enterRender l).work.lb = s.work.lb := rfl
@[simp] theorem State.enterRender_chain (l : Byte) : (s.enterRender l).work.chain = s.work.chain := rfl
@[simp] theorem State.enterRender_nspr (l : Byte) : (s.enterRender l).work.nspr = s.work.nspr := rfl
@[simp] theorem State.enterRender_npix (l : Byte) : (s.enterRender l).work.npix = s.work.npix := rfl
@[simp] theorem State.enterRender_plan (l : Byte) : (s.enterRender l).work.plan = s.work.plan := rfl
@[simp] theorem State.enterRender_hsA (l : Byte) : (s.enterRender l).work.hsA = s.work.hsA := rfl
@[simp] theorem State.enterRender_hsB (l : Byte) : (s.enterRender l).work.hsB = s.work.hsB := rfl
@[simp] theorem State.enterRender_vsA (l : Byte) : (s.enterRender l).work.vsA = s.work.vsA := rfl
@[simp] theorem State.enterRender_vsB (l : Byte) : (s.enterRender l).work.vsB = s.work.vsB := rfl
@[simp] theorem State.enterRender_line (l : Byte) : (s.enterRender l).work.line = l := rfl
@[simp] theorem State.enterRender_stage (l : Byte) : (s.enterRender l).stage = some .clear := rfl
@[simp] theorem State.enterRender_response (l : Byte) : (s.enterRender l).response = s.response := rfl
@[simp] theorem State.enterRender_call (l : Byte) : (s.enterRender l).call = s.call := rfl
@[simp] theorem State.enterRender_ret (l : Byte) : (s.enterRender l).ret = s.ret := rfl
@[simp] theorem State.enterRender_inputs (l : Byte) : (s.enterRender l).inputs = s.inputs := rfl
@[simp] theorem State.enterRender_freeCount (l : Byte) : (s.enterRender l).freeCount = s.freeCount := rfl

/-! ### `State.atStage` -/

@[simp] theorem State.atStage_ext (st : Stage) : (s.atStage st).ext = s.ext := rfl
@[simp] theorem State.atStage_work (st : Stage) : (s.atStage st).work = s.work := rfl
@[simp] theorem State.atStage_stage (st : Stage) : (s.atStage st).stage = some st := rfl
@[simp] theorem State.atStage_response (st : Stage) : (s.atStage st).response = s.response := rfl
@[simp] theorem State.atStage_call (st : Stage) : (s.atStage st).call = s.call := rfl
@[simp] theorem State.atStage_ret (st : Stage) : (s.atStage st).ret = s.ret := rfl
@[simp] theorem State.atStage_inputs (st : Stage) : (s.atStage st).inputs = s.inputs := rfl
@[simp] theorem State.atStage_freeCount (st : Stage) : (s.atStage st).freeCount = s.freeCount := rfl

/-! ### `State.returns` -/

@[simp] theorem State.returns_ext (r : CallResult) : (s.returns r).ext = s.ext := rfl
@[simp] theorem State.returns_work (r : CallResult) : (s.returns r).work = s.work := rfl
@[simp] theorem State.returns_stage (r : CallResult) : (s.returns r).stage = s.stage := rfl
@[simp] theorem State.returns_response (r : CallResult) : (s.returns r).response = s.response := rfl
@[simp] theorem State.returns_call (r : CallResult) : (s.returns r).call = s.call := rfl
@[simp] theorem State.returns_ret (r : CallResult) : (s.returns r).ret = some r := rfl
@[simp] theorem State.returns_inputs (r : CallResult) : (s.returns r).inputs = s.inputs := rfl
@[simp] theorem State.returns_freeCount (r : CallResult) : (s.returns r).freeCount = s.freeCount := rfl

/-! ### `State.finish` -/

@[simp] theorem State.finish_ext (r : Response) : (s.finish r).ext = s.ext := rfl
@[simp] theorem State.finish_work (r : Response) : (s.finish r).work = Config.freeWork s.freeCount := rfl
@[simp] theorem State.finish_stage (r : Response) : (s.finish r).stage = none := rfl
@[simp] theorem State.finish_response (r : Response) : (s.finish r).response = some r := rfl
@[simp] theorem State.finish_call (r : Response) : (s.finish r).call = s.call := rfl
@[simp] theorem State.finish_ret (r : Response) : (s.finish r).ret = s.ret := rfl
@[simp] theorem State.finish_inputs (r : Response) : (s.finish r).inputs = s.inputs := rfl
@[simp] theorem State.finish_freeCount (r : Response) : (s.finish r).freeCount = s.freeCount + 1 := rfl

/-! ### `State.raise` -/

@[simp] theorem State.raise_ext (c : Cause) : (s.raise c).ext = s.ext := rfl
@[simp] theorem State.raise_work (c : Cause) : (s.raise c).work = Config.freeWork s.freeCount := rfl
@[simp] theorem State.raise_stage (c : Cause) : (s.raise c).stage = none := rfl
@[simp] theorem State.raise_response (c : Cause) : (s.raise c).response = some (.fault c) := rfl
@[simp] theorem State.raise_call (c : Cause) : (s.raise c).call = s.call := rfl
@[simp] theorem State.raise_ret (c : Cause) : (s.raise c).ret = s.ret := rfl
@[simp] theorem State.raise_inputs (c : Cause) : (s.raise c).inputs = s.inputs := rfl
@[simp] theorem State.raise_freeCount (c : Cause) : (s.raise c).freeCount = s.freeCount + 1 := rfl

end Sys2Proof.Machine
end

