-- ==== Sys2Proof/Laws/Outcome.lean ====
section
/-! SUPPORT. What sequencing, the line guard and the line-buffer lift can answer. -/

namespace Sys2Proof.Machine

variable {α β : Type}

@[simp] theorem andThen_next (a : α) (f : α → Host.Outcome β Fault Refusal) : andThen (.next a) f = f a := rfl
@[simp] theorem andThen_fault (r : Fault) (f : α → Host.Outcome β Fault Refusal) : andThen (.fault r) f = .fault r := rfl
@[simp] theorem andThen_refused (r : Refusal) (f : α → Host.Outcome β Fault Refusal) :
    andThen (.refused r) f = .refused r := rfl

theorem andThen_eq_next {o : Host.Outcome α Fault Refusal} {f : α → Host.Outcome β Fault Refusal} {b : β} :
    andThen o f = .next b ↔ ∃ a, o = .next a ∧ f a = .next b := by
  cases o <;> simp

theorem onLb_eq_next {s t : State} {o : Host.Outcome LineBuf Fault Refusal} :
    onLb s o = .next t ↔ ∃ lb, o = .next lb ∧ t = s.setLb lb := by
  cases o <;> simp [onLb, eq_comm]

@[simp] theorem onLb_next (s : State) (lb : LineBuf) : onLb s (.next lb) = .next (s.setLb lb) := rfl

theorem onLine_eq_next {line : Byte} {o : Host.Outcome State Fault Refusal} {t : State} :
    onLine line o = .next t ↔ line.toNat < Config.visibleLines ∧ o = .next t := by
  unfold onLine; split <;> simp_all

theorem onLine_of_lt {line : Byte} (h : line.toNat < 224) (o : Host.Outcome State Fault Refusal) : onLine line o = o := by
  simp [onLine, Config.visibleLines, h]

theorem onLine_of_le {line : Byte} (h : 224 ≤ line.toNat) (o : Host.Outcome State Fault Refusal) :
    onLine line o = .refused .lineOutOfRange := by
  simp [onLine, Config.visibleLines, Nat.not_lt.mpr h]

end Sys2Proof.Machine
end

