-- ==== Sys2Proof/Laws/Drawing.lean ====
section
/-! SUPPORT. What the drawing operations do, once each: every one that stays inside the line buffer completes, and
its cells are those of Safety/Picture.lean (`Shows`); and whatever one DRAW does to the line buffer in a way that
composes, every drawing operation does (`DrawClosed`). -/

namespace Sys2Proof.Machine

open Sys2Proof.Picture

/-- The operation completes from `lb`, and turns the cell at every position `y` into `f y` of it. -/
def Shows (o : Host.Outcome LineBuf Fault Refusal) (lb : LineBuf) (f : Int → PixelCell → PixelCell) : Prop :=
  ∃ lb', o = .next lb' ∧ ∀ y, lb'.cell y = (lb.cell y).map (f y)

theorem Shows.same (lb : LineBuf) : Shows (.next lb) lb (fun _ c => c) := ⟨lb, rfl, by simp⟩

theorem Shows.congr {o : Host.Outcome LineBuf Fault Refusal} {lb : LineBuf} {f g : Int → PixelCell → PixelCell}
    (h : Shows o lb f) (hfg : ∀ y c, f y c = g y c) : Shows o lb g := by
  obtain rfl : f = g := funext fun y => funext fun c => hfg y c
  exact h

theorem Shows.andThen {o : Host.Outcome LineBuf Fault Refusal} {k : LineBuf → Host.Outcome LineBuf Fault Refusal}
    {lb : LineBuf} {f g : Int → PixelCell → PixelCell} (ho : Shows o lb f) (hk : ∀ lb', Shows (k lb') lb' g) :
    Shows (andThen o k) lb (fun y c => g y (f y c)) := by
  obtain ⟨lb₁, rfl, h₁⟩ := ho
  obtain ⟨lb₂, h, h₂⟩ := hk lb₁
  exact ⟨lb₂, h, fun y => by rw [h₂, h₁, Option.map_map]; rfl⟩

/-! ### DRAW -/

/-- DRAW inside the buffer completes and changes its own cell alone. -/
theorem drawCell_shows {x : Int} (hx : -32 ≤ x ∧ x ≤ 351) (color : Color) (prio : BitVec 1) (lb : LineBuf) :
    Shows (drawCell x color prio lb) lb (fun y c => if y = x then composite color prio c else c) := by
  obtain ⟨c, hc⟩ := lb.cell_of_mem hx
  refine ⟨lb.put x (composite color prio c), by simp [drawCell, hc], fun y => ?_⟩
  rw [lb.cell_put hx]
  by_cases h : y = x <;> simp [h, hc]

/-- DRAW outside the buffer is the model's fault. -/
theorem drawCell_outside {x : Int} (hx : ¬(-32 ≤ x ∧ x ≤ 351)) (color : Color) (prio : BitVec 1) (lb : LineBuf) :
    drawCell x color prio lb = .fault .cellOutsideBuffer := by
  simp [drawCell, LineBuf.cell_eq_none hx]

/-- R131: the priority a drawn cell holds. -/
@[simp] theorem drawnCell_prio (color : Color) (prio : BitVec 1) : (drawnCell color prio).prio.toNat = prio.toNat := by
  simp [drawnCell]; omega

/-! ### PATDEC -/

/-- R91: the fields of an entry, as numbers. -/
theorem ofWord_eq (w : Word) : NtEntry.ofWord w = entryOf w := by simp [NtEntry.ofWord, entryOf, field_eq_ofNat]

/-- R204: what each cell column of a sprite is decoded with. -/
theorem cellEntry_eq (d : SprEntry) (line p : Nat) : cellEntry d line p = { entryOf d.ref with tile := cellTile d line p } := by
  rw [cellEntry, ofWord_eq]

/-- R104: the palette entry of a pixel, as a number. -/
theorem paletteIndex_eq (palrow : BitVec 2) (p : BitVec 4) :
    paletteIndex palrow p = BitVec.ofNat 6 (16 * palrow.toNat + p.toNat) := by rw [paletteIndex, Nat.mul_comm]

/-- R103: the address of a pattern row, as a number. -/
theorem patternRowAddr_eq (tile : BitVec 11) (r : Nat) : patternRowAddr tile r = 32 * tile.toNat + 4 * r := by
  rw [patternRowAddr, Config.tileBytes, Config.tileRowBytes, Nat.mul_comm, Nat.mul_comm r]

/-- R92: the two pixels of a pattern byte, as numbers. -/
theorem nibbles_eq (b : Byte) : nibbles b = [BitVec.ofNat 4 (b.toNat / 16), BitVec.ofNat 4 (b.toNat % 16)] := by
  revert b; decide +kernel

theorem drawPixels_shows (e : Snapshot) (palrow : BitVec 2) (prio : BitVec 1) (ps : List (BitVec 4)) (x : Int)
    (hx : -32 ≤ x) (hl : x + ps.length ≤ 352) (lb : LineBuf) :
    Shows (drawPixels e palrow prio ps x lb) lb
      (fun y c => if x ≤ y then (ps[(y - x).toNat]?).elim c (fun p => paint e palrow prio p c) else c) := by
  induction ps generalizing x lb with
  | nil => exact (Shows.same lb).congr (by simp)
  | cons p ps ih =>
    simp only [List.length_cons] at hl
    have head : Shows (if p = 0#4 then .next lb else drawCell x (palRead e (paletteIndex palrow p)) prio lb) lb
        (fun y c => if y = x then paint e palrow prio p c else c) := by
      by_cases hp : p = 0#4
      · simpa [hp, paint] using Shows.same lb
      · simpa [hp, paint, paletteIndex_eq] using drawCell_shows ⟨hx, by omega⟩ _ prio lb
    refine ((head.andThen fun lb' => ih (x + 1) (by omega) (by omega) lb').congr fun y c => ?_)
    rcases lt_trichotomy y x with h | h | h
    · have h1 : ¬ x ≤ y := by omega
      have h2 : ¬ x + 1 ≤ y := by omega
      simp [h1, h2, h.ne]
    · subst h; simp
    · have h1 : x ≤ y := by omega
      have h2 : x + 1 ≤ y := by omega
      have h3 : (y - x).toNat = (y - (x + 1)).toNat + 1 := by omega
      simp [h1, h2, h3, h.ne']

theorem patternPixels_length (e : Snapshot) (n : NtEntry) (subrow : BitVec 3) : (patternPixels e n subrow).length = 8 := by
  unfold patternPixels patternRow nibbles; split <;> simp

/-- The 8 pixels of a tile row are its screen pixels (R141 to R143). -/
theorem patternPixels_getElem (e : Snapshot) (n : NtEntry) (subrow : BitVec 3) {k : Nat} (hk : k < 8) :
    (patternPixels e n subrow)[k]? = some (tilePixel e n subrow k) := by
  by_cases h : n.hflip = 1#1 <;> interval_cases k <;>
    simp [patternPixels, patternRow, nibbles_eq, patternRowAddr_eq, flippedRow, tilePixel, storedPixel, h]

/-- PATDEC inside the buffer completes and shows its tile row. -/
theorem patdecF_shows (e : Snapshot) {x : Int} (hx : -32 ≤ x) (hx' : x + 8 ≤ 352) (n : NtEntry) (subrow : BitVec 3)
    (lb : LineBuf) : Shows (patdecF e x n subrow lb) lb (tileAt e n subrow x) := by
  refine (drawPixels_shows e n.palrow n.prio _ x hx (by rw [patternPixels_length]; exact hx') lb).congr fun y c => ?_
  unfold tileAt tileOver
  by_cases h1 : x ≤ y
  · by_cases h2 : y < x + 8
    · simp [h1, h2, patternPixels_getElem e n subrow (show (y - x).toNat < 8 by omega)]
    · rw [List.getElem?_eq_none (by rw [patternPixels_length]; omega)]; simp [h2]
  · simp [h1]

/-! ### ROWRUN -/

/-- ROWRUN inside the buffer completes and shows its run. -/
theorem rowRun_shows (e : Snapshot) (subrow : BitVec 3) (ncols : Nat) {x : Int} (hx : -32 ≤ x)
    (hx' : x + 8 * (ncols : Int) ≤ 352) (addr : Nat) (lb : LineBuf) :
    Shows (rowRun e subrow ncols x addr lb) lb (runAt e subrow ncols x addr) := by
  induction ncols generalizing x addr lb with
  | zero => exact (Shows.same lb).congr fun y c => by unfold runAt; rw [if_neg (by push_cast; omega)]
  | succ n ih =>
    push_cast at hx'
    refine ((patdecF_shows e hx (by omega) _ subrow lb).andThen
      fun lb' => ih (x := x + 8) (by omega) (by omega) _ lb').congr fun y c => ?_
    unfold runAt tileAt
    push_cast
    by_cases h1 : x ≤ y
    · by_cases h2 : y < x + 8
      · have h3 : ¬ x + 8 ≤ y := by omega
        have h4 : y < x + 8 * ((n : Int) + 1) := by omega
        have h5 : (y - x).toNat / 8 = 0 := by omega
        have h6 : (y - x).toNat % 8 = (y - x).toNat := by omega
        simp [h1, h2, h3, h4, h6, runEntry, ofWord_eq, h5]
      · have h3 : x + 8 ≤ y := by omega
        have h5 : (y - x).toNat / 8 = (y - (x + 8)).toNat / 8 + 1 := by omega
        have h6 : (y - x).toNat % 8 = (y - (x + 8)).toNat % 8 := by omega
        have h7 : (y < x + 8 + 8 * (n : Int)) ↔ y < x + 8 * ((n : Int) + 1) := by omega
        have h8 : addr + 2 + 2 * ((y - (x + 8)).toNat / 8) = addr + 2 * ((y - (x + 8)).toNat / 8 + 1) := by omega
        simp only [h1, h2, h3, true_and, and_false, if_false, h7, h6, runEntry, h5, Config.ntEntryBytes, h8]
    · have h3 : ¬ x + 8 ≤ y := by omega
      simp [h1, h3]

/-! ### PLANE and WINDOW -/

theorem planeTiles_eq {code : BitVec 2} {t : Nat} (h : planeTiles code = some t) : t = 32 ∨ t = 64 ∨ t = 128 := by
  unfold planeTiles at h; split at h <;> simp_all

theorem planeTiles_isSome {code : BitVec 2} (h : code ≠ 2#2) : ∃ t, planeTiles code = some t := by
  have : ∀ c : BitVec 2, c ≠ 2#2 → (planeTiles c).isSome = true := by decide
  exact Option.isSome_iff_exists.mp (this code h)

theorem planePass1_shows (e : Snapshot) (p : PlaneLine) (lb : LineBuf) :
    Shows (planePass1 e p lb) lb (pass1At e p) := by
  unfold planePass1 pass1At Config.screenW
  by_cases h : p.sx < 320
  · simp only [h, if_true]; exact rowRun_shows e _ _ (by omega) (by unfold ceil8; omega) _ lb
  · simp only [h, if_false]; exact Shows.same lb

theorem planePass2_shows (e : Snapshot) (wt : Nat) (p : PlaneLine) (lb : LineBuf) :
    Shows (planePass2 e wt p lb) lb (pass2At e wt p) := by
  unfold planePass2 pass2At pass2Columns Config.screenW Config.ntEntryBytes
  by_cases h : 0 < p.sx
  · simp only [h, if_true]; exact rowRun_shows e _ _ (by omega) (by unfold ceil8; omega) _ lb
  · simp only [h, if_false]; exact Shows.same lb

/-- PLANE with two size codes that exist completes, at every scroll, and shows its two passes. -/
theorem planeRun_shows (e : Snapshot) {wt ht : Nat} (hw : planeTiles e.regf.planeWCode = some wt)
    (hh : planeTiles e.regf.planeHCode = some ht) (line base hscroll vscroll : Nat) (lb : LineBuf) :
    Shows (planeRun e line base hscroll vscroll lb) lb (planeAt e wt ht line base hscroll vscroll) := by
  unfold planeRun
  rw [hw, hh]
  exact (planePass1_shows e _ lb).andThen fun lb' => planePass2_shows e wt _ lb'

/-- R159, R160: where a visible cell of a plane comes from: the left edge of pass 1 or the columns of pass 2, which never
meet. -/
theorem planeAt_eq (e : Snapshot) {wt : Nat} (hwt : 0 < wt) (ht line base h v : Nat) {y : Int} (h0 : 0 ≤ y) (h1 : y < 320)
    (c : PixelCell) : planeAt e wt ht line base h v y c =
      (let p := planeLine wt ht line base h v
       let col := (if (p.sx : Int) ≤ y then y - p.sx else y + p.off).toNat
       tileOver e (runEntry e p.rowAddr col) p.subrow (col % 8) c) := by
  have hsx : h % (wt * 8) < wt * 8 := Nat.mod_lt _ (by omega)
  unfold planeAt planeLine pass1At pass2At runAt runEntry Config.ntEntryBytes
  dsimp only
  generalize h % (wt * 8) = sx at *
  by_cases hy : (sx : Int) ≤ y
  · have a1 : sx < 320 := by omega
    have a2 : (sx : Int) ≤ y ∧ y < (sx : Int) + 8 * (((320 - sx + 7) / 8 : Nat) : Int) := by omega
    have a3 : ¬ (-(((wt * 8 - sx) % 8 : Nat) : Int) ≤ y ∧ y < -(((wt * 8 - sx) % 8 : Nat) : Int) +
        8 * ((min (wt - (wt * 8 - sx) / 8) ((320 + (wt * 8 - sx) % 8 + 7) / 8) : Nat) : Int)) := by omega
    rw [if_pos a1, if_pos a2, if_neg a3, ite_self, if_pos hy]
  · have b1 : ∀ n : Nat, ¬ ((sx : Int) ≤ y ∧ y < (sx : Int) + 8 * (n : Int)) := by omega
    have b2 : -(((wt * 8 - sx) % 8 : Nat) : Int) ≤ y ∧ y < -(((wt * 8 - sx) % 8 : Nat) : Int) +
        8 * ((min (wt - (wt * 8 - sx) / 8) ((320 + (wt * 8 - sx) % 8 + 7) / 8) : Nat) : Int) := by omega
    have b3 : 0 < sx := by omega
    rw [if_pos b3, if_pos b2, if_neg (b1 _), ite_self, if_neg hy]
    have b4 : (y - -(((wt * 8 - sx) % 8 : Nat) : Int)).toNat % 8 = (y + ((wt * 8 - sx : Nat) : Int)).toNat % 8 := by omega
    have b5 : 2 * ((wt * 8 - sx) / 8) + 2 * ((y - -(((wt * 8 - sx) % 8 : Nat) : Int)).toNat / 8) =
        2 * ((y + ((wt * 8 - sx : Nat) : Int)).toNat / 8) := by omega
    rw [b4, Nat.add_assoc, b5]

/-- PLANE with a reserved size code is refused. -/
theorem planeRun_reserved (e : Snapshot) (h : e.regf.planeWCode = 2#2 ∨ e.regf.planeHCode = 2#2)
    (line base hscroll vscroll : Nat) (lb : LineBuf) :
    planeRun e line base hscroll vscroll lb = .refused .reservedPlaneSize := by
  unfold planeRun
  rcases h with h | h
  · simp [h, planeTiles]
  · rw [h]; cases planeTiles e.regf.planeWCode <;> simp [planeTiles]

/-- WINDOW completes and shows its run. -/
theorem windowRun_shows (e : Snapshot) (line : Nat) (lb : LineBuf) : Shows (windowRun e line lb) lb (windowAt e line) :=
  rowRun_shows e _ 40 (by omega) (by omega) _ lb

/-! ### SPRDRAW -/

/-- The cells of a planned sprite that lie in the buffer. -/
def plannedInside (e : Snapshot) (q : PlanEntry) : Prop :=
  q.cells = 0 ∨ (-32 ≤ (sprFields e q.index).x ∧ (sprFields e q.index).x + 8 * (q.cells : Int) ≤ 352)

theorem drawCells_shows (e : Snapshot) (d : SprEntry) (line left p : Nat) (hx : -32 ≤ d.x + 8 * (p : Int))
    (hx' : d.x + 8 * ((p : Int) + left) ≤ 352) (lb : LineBuf) :
    Shows (drawCells e d line left p lb) lb (fun y c =>
      if d.x + 8 * (p : Int) ≤ y ∧ y < d.x + 8 * ((p : Int) + left) then
        tileOver e (cellEntry d line ((y - d.x).toNat / 8)) (cellSubrow d line) ((y - d.x).toNat % 8) c
      else c) := by
  induction left generalizing p lb with
  | zero => exact (Shows.same lb).congr fun y c => by rw [if_neg (by push_cast; omega)]
  | succ n ih =>
    push_cast at hx'
    refine ((patdecF_shows e hx (by omega) _ _ lb).andThen
      fun lb' => ih (p + 1) (by push_cast; omega) (by push_cast; omega) lb').congr fun y c => ?_
    unfold tileAt
    push_cast
    by_cases h1 : d.x + 8 * (p : Int) ≤ y
    · by_cases h2 : y < d.x + 8 * (p : Int) + 8
      · have h3 : ¬ d.x + 8 * ((p : Int) + 1) ≤ y := by omega
        have h4 : y < d.x + 8 * ((p : Int) + ((n : Int) + 1)) := by omega
        by_cases h0 : d.x ≤ y
        · have h5 : (y - d.x).toNat / 8 = p := by omega
          have h6 : (y - (d.x + 8 * (p : Int))).toNat = (y - d.x).toNat % 8 := by omega
          simp [h1, h2, h3, h4, h5, h6]
        · omega
      · have h3 : d.x + 8 * ((p : Int) + 1) ≤ y := by omega
        have h7 : (y < d.x + 8 * ((p : Int) + 1 + n)) ↔ y < d.x + 8 * ((p : Int) + ((n : Int) + 1)) := by omega
        simp only [h1, h2, h3, true_and, and_false, if_false, h7]
    · have h3 : ¬ d.x + 8 * ((p : Int) + 1) ≤ y := by omega
      simp [h1, h3]

theorem drawSprites_shows (e : Snapshot) (line : Nat) (plan : List PlanEntry) (h : ∀ q ∈ plan, plannedInside e q)
    (lb : LineBuf) :
    Shows (drawSprites e line plan lb) lb (fun y c => plan.foldl (fun c q => spriteAt e line q y c) c) := by
  induction plan generalizing lb with
  | nil => exact Shows.same lb
  | cons q plan ih =>
    have one : Shows (drawCells e (sprFields e q.index) line q.cells 0 lb) lb (spriteAt e line q) := by
      rcases h q (by simp) with h0 | ⟨h1, h2⟩
      · rw [h0]; exact (Shows.same lb).congr fun y c => by unfold spriteAt; rw [h0, if_neg (by push_cast; omega)]
      · exact (drawCells_shows e _ line q.cells 0 (by simpa using h1) (by simpa using h2) lb).congr fun y c => by
          simp [spriteAt, cellEntry_eq]
    exact one.andThen fun lb' => ih (fun q' hq' => h q' (by simp [hq'])) lb'

/-- SPRDRAW of a plan whose cells lie in the buffer completes and shows its sprites, the last of the plan first. -/
theorem spriteDraw_shows (e : Snapshot) (line : Nat) (plan : List PlanEntry) (h : ∀ q ∈ plan, plannedInside e q)
    (lb : LineBuf) : Shows (spriteDraw e line plan lb) lb (spritesAt e line plan) :=
  drawSprites_shows e line plan.reverse (by simpa using h) lb

/-! ### What every drawing operation does because DRAW does -/

/-- A relation of line buffers that DRAW keeps and that composes. -/
structure DrawClosed (R : LineBuf → LineBuf → Prop) : Prop where
  refl : ∀ a, R a a
  trans : ∀ a b c, R a b → R b c → R a c
  draw : ∀ x color prio a b, drawCell x color prio a = .next b → R a b

namespace DrawClosed

variable {R : LineBuf → LineBuf → Prop} (hR : DrawClosed R)
include hR

theorem drawPixels {e : Snapshot} {palrow : BitVec 2} {prio : BitVec 1} {ps : List (BitVec 4)} {x : Int} {a b : LineBuf}
    (h : drawPixels e palrow prio ps x a = .next b) : R a b := by
  induction ps generalizing x a with
  | nil => cases h; exact hR.refl _
  | cons p ps ih =>
    obtain ⟨m, hm, hb⟩ := andThen_eq_next.mp h
    refine hR.trans _ _ _ ?_ (ih hb)
    split at hm
    · cases hm; exact hR.refl _
    · exact hR.draw _ _ _ _ _ hm

theorem patdecF {e : Snapshot} {x : Int} {n : NtEntry} {subrow : BitVec 3} {a b : LineBuf}
    (h : patdecF e x n subrow a = .next b) : R a b := hR.drawPixels h

theorem rowRun {e : Snapshot} {subrow : BitVec 3} {ncols : Nat} {x : Int} {addr : Nat} {a b : LineBuf}
    (h : rowRun e subrow ncols x addr a = .next b) : R a b := by
  induction ncols generalizing x addr a with
  | zero => cases h; exact hR.refl _
  | succ n ih =>
    obtain ⟨m, hm, hb⟩ := andThen_eq_next.mp h
    exact hR.trans _ _ _ (hR.patdecF hm) (ih hb)

theorem planeRun {e : Snapshot} {line base hscroll vscroll : Nat} {a b : LineBuf}
    (h : planeRun e line base hscroll vscroll a = .next b) : R a b := by
  unfold Machine.planeRun at h
  split at h
  · obtain ⟨m, hm, hb⟩ := andThen_eq_next.mp h
    refine hR.trans _ m _ ?_ ?_
    · unfold planePass1 at hm; split at hm
      · exact hR.rowRun hm
      · cases hm; exact hR.refl _
    · unfold planePass2 at hb; split at hb
      · exact hR.rowRun hb
      · cases hb; exact hR.refl _
  · cases h

theorem windowRun {e : Snapshot} {line : Nat} {a b : LineBuf} (h : windowRun e line a = .next b) : R a b := hR.rowRun h

theorem drawCells {e : Snapshot} {d : SprEntry} {line left p : Nat} {a b : LineBuf}
    (h : drawCells e d line left p a = .next b) : R a b := by
  induction left generalizing p a with
  | zero => cases h; exact hR.refl _
  | succ n ih =>
    obtain ⟨m, hm, hb⟩ := andThen_eq_next.mp h
    exact hR.trans _ _ _ (hR.patdecF hm) (ih hb)

theorem drawSprites {e : Snapshot} {line : Nat} {plan : List PlanEntry} {a b : LineBuf}
    (h : drawSprites e line plan a = .next b) : R a b := by
  induction plan generalizing a with
  | nil => cases h; exact hR.refl _
  | cons q plan ih =>
    obtain ⟨m, hm, hb⟩ := andThen_eq_next.mp h
    exact hR.trans _ _ _ (hR.drawCells hm) (ih hb)

theorem spriteDraw {e : Snapshot} {line : Nat} {plan : List PlanEntry} {a b : LineBuf}
    (h : spriteDraw e line plan a = .next b) : R a b := hR.drawSprites h

end DrawClosed

end Sys2Proof.Machine
end

