-- ==== Sys2Proof/Laws/Flags.lean ====
section
/-! SUPPORT. The conditions of Machine/Flags.lean, each as a plain proposition. -/

namespace Sys2Proof.Machine

/-- R196. -/
theorem SprEntry.visible_iff {d : SprEntry} {line : Nat} :
    d.visible line = true ↔ d.y ≤ (line : Int) ∧ (line : Int) < d.y + 8 * d.sh := by
  unfold SprEntry.visible; rw [decide_eq_true_eq]

/-- R200. -/
theorem SprEntry.inSides_iff {d : SprEntry} : d.inSides = true ↔ -8 * (d.sw : Int) < d.x ∧ d.x < 320 := by
  unfold SprEntry.inSides; rw [decide_eq_true_eq]; rfl

/-- R202. -/
theorem PlanState.full_iff {p : PlanState} : p.full = true ↔ p.nspr = 16 ∨ 256 ≤ p.npix := by
  unfold PlanState.full; rw [decide_eq_true_eq]; rfl

/-- R222: no fault exactly when none of the four conditions holds. -/
theorem configFault_eq_none {f : RegFields} : configFault f = none ↔
    f.interlace = 0#2 ∧ f.vsColumn = 0#1 ∧ f.planeWCode ≠ 2#2 ∧ f.planeHCode ≠ 2#2 := by
  have h1 : ∀ b : BitVec 1, (¬ b = 1#1) ↔ b = 0#1 := by decide
  unfold configFault
  split
  · simp_all
  · split
    · simp_all
    · split
      · simp_all
      · split <;> simp_all

/-- A configuration without a fault has two plane sizes. -/
theorem planeTiles_of_configOk {f : RegFields} (h : configFault f = none) :
    ∃ wt ht, planeTiles f.planeWCode = some wt ∧ planeTiles f.planeHCode = some ht := by
  obtain ⟨_, _, hw, hh⟩ := configFault_eq_none.mp h
  obtain ⟨wt, hw⟩ := planeTiles_isSome hw
  obtain ⟨ht, hh⟩ := planeTiles_isSome hh
  exact ⟨wt, ht, hw, hh⟩

end Sys2Proof.Machine
end

