-- ==== Sys2Proof/Laws/Memory.lean ====
section
/-! SUPPORT. Video memory: a read after a write, and that a write keeps the canonical form. -/

namespace Sys2Proof.Machine

theorem Memory.wfFrom_mono {lo lo' : Nat} (h : lo' ≤ lo) {m : Memory} (hm : Memory.wfFrom lo m = true) :
    Memory.wfFrom lo' m = true := by
  cases m with
  | nil => rfl
  | cons kb m => simp only [Memory.wfFrom, Bool.and_eq_true, decide_eq_true_eq] at hm ⊢; exact ⟨⟨⟨by omega, hm.1.1.2⟩, hm.1.2⟩, hm.2⟩

theorem Memory.read_eq_zero_of_lt {m : Memory} {lo a : Nat} (hm : Memory.wfFrom lo m = true) (h : a < lo) :
    Memory.read m a = 0#8 := by
  induction m generalizing lo with
  | nil => rfl
  | cons kb m ih =>
    simp only [Memory.wfFrom, Bool.and_eq_true, decide_eq_true_eq] at hm
    have hne : kb.1 ≠ a := by omega
    simp [Memory.read, hne, ih hm.2 (by omega : a < kb.1 + 1)]

theorem Memory.wfFrom_write {m : Memory} {lo a : Nat} (hm : Memory.wfFrom lo m = true) (hlo : lo ≤ a)
    (ha : a < Config.vramSize) (v : Byte) : Memory.wfFrom lo (Memory.write m a v) = true := by
  induction m generalizing lo with
  | nil => by_cases hv : v = 0#8 <;> simp [Memory.write, Memory.wfFrom, hv, hlo, ha]
  | cons kb m ih =>
    have hm' := hm
    simp only [Memory.wfFrom, Bool.and_eq_true, decide_eq_true_eq] at hm
    unfold Memory.write
    split
    · split
      · exact hm'
      · rename_i hlt hv
        simp only [Memory.wfFrom, Bool.and_eq_true, decide_eq_true_eq]
        exact ⟨⟨⟨hlo, ha⟩, hv⟩, ⟨⟨by omega, hm.1.1.2⟩, hm.1.2⟩, hm.2⟩
    · split
      · rename_i hak
        split
        · exact Memory.wfFrom_mono (by omega) hm.2
        · rename_i hv
          simp only [Memory.wfFrom, Bool.and_eq_true, decide_eq_true_eq]
          exact ⟨⟨⟨hlo, ha⟩, hv⟩, hak ▸ hm.2⟩
      · simp only [Memory.wfFrom, Bool.and_eq_true, decide_eq_true_eq]
        exact ⟨hm.1, ih hm.2 (by omega)⟩

/-- A write keeps the canonical form. -/
theorem Memory.write_wf {m : Memory} (hm : m.wf = true) {a : Nat} (ha : a < 65536) (v : Byte) :
    (Memory.write m a v).wf = true := Memory.wfFrom_write hm (Nat.zero_le _) ha v

theorem Memory.read_write_of_wfFrom {m : Memory} {lo : Nat} (hm : Memory.wfFrom lo m = true) (a : Nat) (v : Byte) (a' : Nat) :
    Memory.read (Memory.write m a v) a' = if a' = a then v else Memory.read m a' := by
  induction m generalizing lo with
  | nil =>
    by_cases hv : v = 0#8 <;> by_cases h : a' = a
    · simp [Memory.write, Memory.read, hv]
    · simp [Memory.write, Memory.read, hv]
    · simp [Memory.write, Memory.read, hv, h]
    · simp [Memory.write, Memory.read, hv, h, Ne.symm h]
  | cons kb m ih =>
    obtain ⟨k, b⟩ := kb
    simp only [Memory.wfFrom, Bool.and_eq_true, decide_eq_true_eq] at hm
    have ih := ih hm.2
    unfold Memory.write
    by_cases h1 : a < k
    · have hz : Memory.read ((k, b) :: m) a = 0#8 := by
        rw [Memory.read, if_neg (by omega)]; exact Memory.read_eq_zero_of_lt hm.2 (by omega)
      by_cases hv : v = 0#8
      · rw [if_pos h1, if_pos hv]; split
        · subst a' v; exact hz
        · rfl
      · rw [if_pos h1, if_neg hv, Memory.read.eq_def]; simp only [eq_comm (a := a)]
    · by_cases h2 : a = k
      · subst a
        rw [if_neg h1, if_pos rfl]
        by_cases h : a' = k
        · subst a'
          by_cases hv : v = 0#8
          · rw [if_pos hv, if_pos rfl, hv]; exact Memory.read_eq_zero_of_lt hm.2 (by omega)
          · simp [hv, Memory.read]
        · by_cases hv : v = 0#8 <;> simp [hv, Memory.read, h, Ne.symm h]
      · rw [if_neg h1, if_neg h2, Memory.read, Memory.read, ih]
        by_cases h : k = a' <;> by_cases h' : a' = a <;> simp_all

/-- A read after a write: the byte written at its own address, the byte before anywhere else. -/
theorem Memory.read_write {m : Memory} (hm : m.wf = true) (a : Nat) (v : Byte) (a' : Nat) :
    Memory.read (Memory.write m a v) a' = if a' = a then v else Memory.read m a' := Memory.read_write_of_wfFrom hm a v a'

end Sys2Proof.Machine
end

