-- ==== Sys2Proof/Laws/PerInstr.lean ====
section
/-! SUPPORT. The encoded form of every operation: it starts with the operation's code in bits 4:0 of its first byte, the
other bits of that byte 0, and is at most eight bytes long. -/

namespace Sys2Proof.Laws.EncodedForm

/-- R107, log 1: the first byte is the code, and no operation has more than eight bytes. -/
def Statement (i : Instr) : Prop :=
  (encode i).head? = some (i.code.setWidth 8) ∧ (encode i).length ≤ maxOperationBytes

theorem clear : Statement .clear := ⟨rfl, by decide⟩
theorem dispgate : Statement .dispgate := ⟨rfl, by decide⟩
theorem backdrop : Statement .backdrop := ⟨rfl, by decide⟩
theorem planegate : Statement .planegate := ⟨rfl, by decide⟩
theorem configcheck : Statement .configcheck := ⟨rfl, by decide⟩
theorem scrollfetch (line : Byte) : Statement (.scrollfetch line) := ⟨rfl, by simp [encode, Instr.operandBytes, maxOperationBytes]⟩
theorem planeb (line : Byte) : Statement (.planeb line) := ⟨rfl, by simp [encode, Instr.operandBytes, maxOperationBytes]⟩
theorem winsel (line : Byte) : Statement (.winsel line) := ⟨rfl, by simp [encode, Instr.operandBytes, maxOperationBytes]⟩
theorem sprites (line : Byte) : Statement (.sprites line) := ⟨rfl, by simp [encode, Instr.operandBytes, maxOperationBytes]⟩
theorem done : Statement .done := ⟨rfl, by decide⟩
theorem expand (v3 : BitVec 3) : Statement (.expand v3) := ⟨rfl, by simp [encode, Instr.operandBytes, maxOperationBytes]⟩
theorem draw (x : Int) (color : Color) (prio : BitVec 1) : Statement (.draw x color prio) := ⟨rfl, by simp [encode, Instr.operandBytes, bytes16, maxOperationBytes]⟩
theorem patdec (x : Int) (ref : PatRef) (subrow : BitVec 3) : Statement (.patdec x ref subrow) := by
  cases ref <;> exact ⟨rfl, by simp [encode, Instr.operandBytes, bytes16, maxOperationBytes]⟩
theorem rowrun (x : Int) (addr : Word) (ncols : Nat) (subrow : BitVec 3) : Statement (.rowrun x addr ncols subrow) := ⟨rfl, by simp [encode, Instr.operandBytes, bytes16, maxOperationBytes]⟩
theorem plane (line : Byte) (base : Word) (hscroll vscroll : BitVec 10) : Statement (.plane line base hscroll vscroll) := ⟨rfl, by simp [encode, Instr.operandBytes, bytes16, maxOperationBytes]⟩
theorem window (line : Byte) : Statement (.window line) := ⟨rfl, by simp [encode, Instr.operandBytes, maxOperationBytes]⟩
theorem hsfetch (line : Byte) : Statement (.hsfetch line) := ⟨rfl, by simp [encode, Instr.operandBytes, maxOperationBytes]⟩
theorem sprtrav : Statement .sprtrav := ⟨rfl, by decide⟩
theorem sprdecode (i : BitVec 7) : Statement (.sprdecode i) := ⟨rfl, by simp [encode, Instr.operandBytes, maxOperationBytes]⟩
theorem sprplan (line : Byte) : Statement (.sprplan line) := ⟨rfl, by simp [encode, Instr.operandBytes, maxOperationBytes]⟩
theorem sprdraw (line : Byte) : Statement (.sprdraw line) := ⟨rfl, by simp [encode, Instr.operandBytes, maxOperationBytes]⟩
theorem render (line : Byte) : Statement (.render line) := ⟨rfl, by simp [encode, Instr.operandBytes, maxOperationBytes]⟩

end Sys2Proof.Laws.EncodedForm
end

