-- ==== Sys2Proof/Laws/Sprites.lean ====
section
/-! SUPPORT. The sprite chain and the draw plan: their bounds, and that a plan made by SPRPLAN lies in the buffer. -/

namespace Sys2Proof.Machine

/-! ### The chain -/

theorem chainFrom_length_le (e : Snapshot) (room : Nat) (i : BitVec 7) : (chainFrom e room i).length ≤ room := by
  induction room generalizing i with
  | zero => simp [chainFrom]
  | succ n ih => unfold chainFrom; split <;> simp; exact ih _

/-- R186: the chain holds at most 64 indices. -/
theorem spriteChain_length_le (e : Snapshot) : (spriteChain e).length ≤ 64 := chainFrom_length_le e 64 0#7

/-- R188: an entry lies in the 512 bytes of the sprite table exactly when its index is below `SAT_ENTRIES`. -/
theorem sprEntryAddr_lt_iff (e : Snapshot) (i : BitVec 7) :
    sprEntryAddr e i < e.regf.satBase.toNat + Config.sprEntryBytes * Config.satEntries ↔ i.toNat < Config.satEntries := by
  unfold sprEntryAddr Config.sprEntryBytes Config.satEntries; omega

/-- R189: the chain starts with index 0. -/
theorem spriteChain_head (e : Snapshot) : (spriteChain e).head? = some 0#7 := by
  simp [spriteChain, Config.maxChain, chainFrom]

/-- R185: each index of the chain but the first is the link of the one before it, and is not 0. -/
theorem chainFrom_links (e : Snapshot) (room : Nat) (i : BitVec 7) {k : Nat} {a b : BitVec 7}
    (ha : (chainFrom e room i)[k]? = some a) (hb : (chainFrom e room i)[k + 1]? = some b) : b = sprLink e a ∧ b ≠ 0#7 := by
  induction room generalizing i k with
  | zero => simp [chainFrom] at ha
  | succ n ih =>
    unfold chainFrom at ha hb
    rw [List.getElem?_cons_succ] at hb
    split at hb
    · simp at hb
    · rename_i hl
      rw [if_neg hl] at ha
      cases k with
      | zero =>
        simp only [List.getElem?_cons_zero, Option.some.injEq] at ha
        cases n with
        | zero => simp [chainFrom] at hb
        | succ m =>
          unfold chainFrom at hb
          simp only [List.getElem?_cons_zero, Option.some.injEq] at hb
          subst ha hb; exact ⟨rfl, hl⟩
      | succ k => rw [List.getElem?_cons_succ] at ha; exact ih _ ha hb

/-- R185: a chain shorter than its room ends at an entry whose link is 0. -/
theorem chainFrom_last (e : Snapshot) (room : Nat) (i : BitVec 7) (h : (chainFrom e room i).length < room) :
    ∃ a, (chainFrom e room i).getLast? = some a ∧ sprLink e a = 0#7 := by
  induction room generalizing i with
  | zero => simp at h
  | succ n ih =>
    unfold chainFrom at h ⊢
    by_cases hl : sprLink e i = 0#7
    · exact ⟨i, by simp [hl], hl⟩
    · rw [if_neg hl] at h ⊢
      simp only [List.length_cons, Nat.add_lt_add_iff_right] at h
      obtain ⟨a, ha, hz⟩ := ih _ h
      exact ⟨a, by rw [List.getLast?_cons, ha]; rfl, hz⟩

/-! ### The forward pass -/

theorem sprFields_sw (e : Snapshot) (i : BitVec 7) : 1 ≤ (sprFields e i).sw ∧ (sprFields e i).sw ≤ 4 := by
  have h := (field (memRead1 e (sprEntryAddr e i + Config.sprLayout.sizeOffset)) Config.sprLayout.wCodeBit 2).isLt
  simp only [sprFields, sprCells]; omega

theorem sprFields_sh (e : Snapshot) (i : BitVec 7) : 1 ≤ (sprFields e i).sh ∧ (sprFields e i).sh ≤ 4 := by
  have h := (field (memRead1 e (sprEntryAddr e i + Config.sprLayout.sizeOffset)) Config.sprLayout.hCodeBit 2).isLt
  simp only [sprFields, sprCells]; omega

/-- R201: the cell loop takes as many columns as there are left or as still fit below 256 pixels. -/
theorem emitCells_eq (left cells npix : Nat) (h8 : 8 ∣ npix) :
    emitCells left cells npix = (cells + min left ((256 - npix) / 8), npix + 8 * min left ((256 - npix) / 8)) := by
  induction left generalizing cells npix with
  | zero => simp [emitCells]
  | succ n ih =>
    obtain ⟨m, rfl⟩ := h8
    unfold emitCells Config.maxSprPix
    split
    · rw [ih _ _ ⟨m + 1, by ring⟩]
      have : min (n + 1) ((256 - 8 * m) / 8) = min n ((256 - (8 * m + 8)) / 8) + 1 := by omega
      rw [this]; ext <;> simp <;> ring
    · have : (256 - 8 * m) / 8 = 0 := by omega
      simp [this]

/-- What holds of the forward pass at every moment (R199 to R201). -/
structure PlanState.Ok (e : Snapshot) (line : Nat) (p : PlanState) : Prop where
  nspr_le : p.nspr ≤ 16
  npix_le : p.npix ≤ 256
  npix_dvd : 8 ∣ p.npix
  length : p.plan.length = p.nspr
  pixels : p.npix = 8 * (p.plan.map (·.cells)).sum
  entries : ∀ q ∈ p.plan, (sprFields e q.index).visible line = true ∧ q.cells ≤ (sprFields e q.index).sw ∧
    (q.cells ≠ 0 → (sprFields e q.index).inSides = true)

theorem PlanState.Ok.empty (e : Snapshot) (line : Nat) : PlanState.Ok e line { nspr := 0, npix := 0, plan := [] } :=
  ⟨by simp, by simp, by simp, rfl, rfl, by simp⟩

theorem PlanState.Ok.add {e : Snapshot} {line : Nat} {p : PlanState} (h : PlanState.Ok e line p) (hn : p.nspr < 16)
    {i : BitVec 7} (hv : (sprFields e i).visible line = true) : PlanState.Ok e line (p.add i (sprFields e i)) := by
  have h8 := h.npix_dvd
  have hle := h.npix_le
  by_cases hs : (sprFields e i).inSides = true
  · have hr := emitCells_eq (sprFields e i).sw 0 p.npix h8
    refine ⟨?_, ?_, ?_, ?_, ?_, ?_⟩
    · simp [PlanState.add]; omega
    · simp [PlanState.add, hs, hr]; omega
    · simp [PlanState.add, hs, hr]; exact (Nat.dvd_add_right h8).mpr ⟨_, rfl⟩
    · simp [PlanState.add, h.length]
    · simp [PlanState.add, hs, hr, Nat.mul_add, ← h.pixels]
    · intro q hq
      simp only [PlanState.add, List.mem_append, List.mem_singleton] at hq
      rcases hq with hq | rfl
      · exact h.entries q hq
      · simp [hs, hr, hv]
  · refine ⟨?_, ?_, ?_, ?_, ?_, ?_⟩
    · simp [PlanState.add]; omega
    · simpa [PlanState.add, hs] using hle
    · simpa [PlanState.add, hs] using h8
    · simp [PlanState.add, h.length]
    · simp [PlanState.add, hs, ← h.pixels]
    · intro q hq
      simp only [PlanState.add, List.mem_append, List.mem_singleton] at hq
      rcases hq with hq | rfl
      · exact h.entries q hq
      · simp [hs, hv]

theorem planFrom_ok (e : Snapshot) (line : Nat) (chain : List (BitVec 7)) (p : PlanState) (h : PlanState.Ok e line p)
    (hn : p.nspr < 16) : PlanState.Ok e line (planFrom e line chain p) := by
  induction chain generalizing p with
  | nil => exact h
  | cons i rest ih =>
    unfold planFrom
    by_cases hv : (sprFields e i).visible line = true
    · have hq := h.add hn hv
      simp only [hv, if_true]
      by_cases hf : (p.add i (sprFields e i)).full = true
      · rw [if_pos hf]; exact hq
      · rw [if_neg hf]
        refine ih _ hq ?_
        rw [PlanState.full_iff, not_or] at hf
        have := hq.nspr_le
        omega
    · simp only [hv]; exact ih _ h hn

/-- R199 to R202: the counts and the plan that SPRPLAN leaves. -/
theorem spritePlan_ok (e : Snapshot) (line : Nat) (chain : List (BitVec 7)) :
    PlanState.Ok e line (spritePlan e line chain) := planFrom_ok e line chain _ (PlanState.Ok.empty e line) (by simp)

/-- R200, R209: the cells of every planned sprite lie in the buffer. -/
theorem spritePlan_inside (e : Snapshot) (line : Nat) (chain : List (BitVec 7)) :
    ∀ q ∈ (spritePlan e line chain).plan, plannedInside e q := by
  intro q hq
  obtain ⟨_, hc, hs⟩ := (spritePlan_ok e line chain).entries q hq
  by_cases h0 : q.cells = 0
  · exact .inl h0
  · have hi := SprEntry.inSides_iff.mp (hs h0)
    have hw := sprFields_sw e q.index
    right; omega

end Sys2Proof.Machine
end

