-- ==== Sys2Proof/Laws/Stages.lean ====
section
/-! SUPPORT. What the three drawing stages and the layers of a render do, once each: they complete whenever the
configuration has no fault, keep everything outside the transient storage, and show their pictures. -/

namespace Sys2Proof.Machine

open Sys2Proof.Picture

/-! ### The state after the forward pass -/

section
variable (s : State) (line : Nat)
@[simp] theorem State.planned_ext : (s.planned line).ext = s.ext := rfl
@[simp] theorem State.planned_lb : (s.planned line).work.lb = s.work.lb := rfl
@[simp] theorem State.planned_chain : (s.planned line).work.chain = s.work.chain := rfl
@[simp] theorem State.planned_plan : (s.planned line).work.plan = (spritePlan s.ext line s.work.chain).plan := rfl
@[simp] theorem State.planned_line : (s.planned line).work.line = s.work.line := rfl
@[simp] theorem State.planned_stage : (s.planned line).stage = s.stage := rfl
@[simp] theorem State.planned_response : (s.planned line).response = s.response := rfl
@[simp] theorem State.planned_call : (s.planned line).call = s.call := rfl
@[simp] theorem State.planned_ret : (s.planned line).ret = s.ret := rfl
@[simp] theorem State.planned_inputs : (s.planned line).inputs = s.inputs := rfl
@[simp] theorem State.planned_freeCount : (s.planned line).freeCount = s.freeCount := rfl
end

/-! ### One stage each -/

/-- `t` has the stores, the line, the pending inputs and the model's own fields of `s`. -/
structure Keeps (s t : State) : Prop where
  ext : t.ext = s.ext
  line : t.work.line = s.work.line
  call : t.call = s.call
  ret : t.ret = s.ret
  inputs : t.inputs = s.inputs
  response : t.response = s.response
  freeCount : t.freeCount = s.freeCount

theorem Keeps.refl (s : State) : Keeps s s := ⟨rfl, rfl, rfl, rfl, rfl, rfl, rfl⟩

theorem Keeps.trans {s t u : State} (h : Keeps s t) (k : Keeps t u) : Keeps s u :=
  ⟨k.ext.trans h.ext, k.line.trans h.line, k.call.trans h.call, k.ret.trans h.ret, k.inputs.trans h.inputs,
    k.response.trans h.response, k.freeCount.trans h.freeCount⟩

/-- A stage completes at `st`, keeps the rest, and turns every cell as `f` says. -/
def StageShows (o : Host.Outcome State Fault Refusal) (s : State) (st : Stage) (f : Int → PixelCell → PixelCell) : Prop :=
  ∃ t, o = .next t ∧ Keeps s t ∧ t.stage = some st ∧ ∀ y, t.work.lb.cell y = (s.work.lb.cell y).map (f y)

/-- A plane with two sizes that exist, as `planeOf` has it. -/
theorem planeRun_shows_planeOf {e : Snapshot} (hc : configFault e.regf = none) (line base : Nat) (hscroll vscroll : BitVec 10)
    (lb : LineBuf) :
    Shows (planeRun e line base hscroll.toNat vscroll.toNat lb) lb (planeOf e line base hscroll vscroll) := by
  obtain ⟨wt, ht, hw, hh⟩ := planeTiles_of_configOk hc
  exact (planeRun_shows e hw hh line base _ _ lb).congr fun y c => by unfold planeOf; rw [hw, hh]

theorem planeBStage_shows {s : State} (hc : configFault s.ext.regf = none) (line : Nat) :
    StageShows (s.planeBStage line) s .winOrPlaneA
      (planeOf s.ext line s.ext.regf.baseB.toNat s.work.hsB s.work.vsB) := by
  obtain ⟨lb, h, hl⟩ := planeRun_shows_planeOf hc line s.ext.regf.baseB.toNat s.work.hsB s.work.vsB s.work.lb
  exact ⟨(s.atStage .winOrPlaneA).setLb lb, by rw [State.planeBStage, h, onLb_next], ⟨rfl, rfl, rfl, rfl, rfl, rfl, rfl⟩, rfl, hl⟩

theorem winOrPlaneAStage_shows {s : State} (hc : configFault s.ext.regf = none) (line : Nat) :
    StageShows (s.winOrPlaneAStage line) s .sprites (fun y c =>
      if windowSelected s.ext.regf line then windowAt s.ext line y c
      else planeOf s.ext line s.ext.regf.baseA.toNat s.work.hsA s.work.vsA y c) := by
  by_cases hw : windowSelected s.ext.regf line = true
  · obtain ⟨lb, h, hl⟩ := windowRun_shows s.ext line s.work.lb
    refine ⟨(s.atStage .sprites).setLb lb, by rw [State.winOrPlaneAStage, if_pos hw, h, onLb_next],
      ⟨rfl, rfl, rfl, rfl, rfl, rfl, rfl⟩, rfl, fun y => (hl y).trans ?_⟩
    congr 1; funext c; exact (if_pos hw).symm
  · obtain ⟨lb, h, hl⟩ := planeRun_shows_planeOf hc line s.ext.regf.baseA.toNat s.work.hsA s.work.vsA s.work.lb
    refine ⟨(s.atStage .sprites).setLb lb, by rw [State.winOrPlaneAStage, if_neg hw, h, onLb_next],
      ⟨rfl, rfl, rfl, rfl, rfl, rfl, rfl⟩, rfl, fun y => (hl y).trans ?_⟩
    congr 1; funext c; exact (if_neg hw).symm

theorem spritesStage_shows (s : State) (line : Nat) :
    StageShows (s.spritesStage line) s .done
      (spritesAt s.ext line (spritePlan s.ext line (spriteChain s.ext)).plan) := by
  obtain ⟨lb, h, hl⟩ := spriteDraw_shows s.ext line _ (spritePlan_inside s.ext line (spriteChain s.ext)) s.work.lb
  refine ⟨(((s.setChain (spriteChain s.ext)).planned line).atStage .done).setLb lb, ?_, ⟨rfl, rfl, rfl, rfl, rfl, rfl, rfl⟩,
    rfl, hl⟩
  simp only [State.spritesStage, State.planned_ext, State.setChain_ext, State.planned_plan, State.setChain_chain,
    State.planned_lb, State.setChain_lb]
  rw [h, onLb_next]

/-- R223 to R227: the stages from ScrollFetch on complete, and deliver the layers over the cells they find. -/
theorem renderLayers_shows {s : State} (hc : configFault s.ext.regf = none) (line : Nat) :
    ∃ t, renderLayers line s = .next t.delivered ∧ Keeps s t ∧
      ∀ y, t.work.lb.cell y = (s.work.lb.cell y).map (layersAt s.ext line y) := by
  obtain ⟨t1, h1, k1, -, c1⟩ := planeBStage_shows (s := s.scrollFetched line) hc line
  obtain ⟨t2, h2, k2, -, c2⟩ := winOrPlaneAStage_shows (s := t1) (by rw [k1.ext]; exact hc) line
  obtain ⟨t3, h3, k3, -, c3⟩ := spritesStage_shows t2 line
  have k0 : Keeps s (s.scrollFetched line) := ⟨rfl, rfl, rfl, rfl, rfl, rfl, rfl⟩
  have e1 : t1.ext = s.ext := k1.ext
  have e2 : t2.ext = s.ext := k2.ext.trans e1
  refine ⟨t3, ?_, ((k0.trans k1).trans k2).trans k3, fun y => ?_⟩
  · simp only [renderLayers, h1, h2, h3, andThen_next]
  · have hA : t1.work.hsA = hsFetchA s.ext line ∧ t1.work.vsA = s.ext.vsA := by
      obtain ⟨lb, _, rfl⟩ := onLb_eq_next.mp h1; exact ⟨rfl, rfl⟩
    rw [c3, c2, c1, e1, e2, hA.1, hA.2, Option.map_map, Option.map_map]; rfl

end Sys2Proof.Machine
end

