-- ==== Sys2Proof/Laws/Picture.lean ====
section
/-! SUPPORT. What a row depends on: the pixels of a render are the same over two snapshots that agree on everything a
render reads. -/

namespace Sys2Proof.Machine

open Sys2Proof.Picture

/-- R70: a palette read is the entry of its index. -/
theorem palRead_get (e : Snapshot) (i : BitVec 6) : e.pal.colors[i.toNat]? = some (palRead e i) := by
  have : i.toNat < e.pal.colors.length := by rw [e.pal.full]; exact i.isLt
  simp [palRead, List.getD, this]

section Layers

/-! ### Each layer, over two snapshots that agree on what it reads -/

variable {e e' : Snapshot} (hv : e'.vram = e.vram)
include hv

theorem memRead1_congr (a : Nat) : memRead1 e' a = memRead1 e a := by unfold memRead1; rw [hv]

theorem memRead2_congr (a : Nat) : memRead2 e' a = memRead2 e a := by unfold memRead2; simp only [memRead1_congr hv]

theorem sprFields_congr (hs : e'.regf.satBase = e.regf.satBase) (i : BitVec 7) : sprFields e' i = sprFields e i := by
  unfold sprFields sprLink sprEntryAddr; simp only [memRead1_congr hv, memRead2_congr hv, hs]

theorem spriteChain_congr (hs : e'.regf.satBase = e.regf.satBase) : spriteChain e' = spriteChain e := by
  unfold spriteChain
  generalize Config.maxChain = n
  generalize 0#7 = i
  induction n generalizing i with
  | zero => rfl
  | succ n ih =>
    have : sprLink e' i = sprLink e i := congrArg SprEntry.link (sprFields_congr hv hs i)
    unfold chainFrom; rw [this, ih]

theorem spritePlan_congr (hs : e'.regf.satBase = e.regf.satBase) (line : Nat) (chain : List (BitVec 7)) :
    spritePlan e' line chain = spritePlan e line chain := by
  unfold spritePlan
  generalize (⟨0, 0, []⟩ : PlanState) = p
  induction chain generalizing p with
  | nil => rfl
  | cons i r ih => unfold planFrom; simp only [sprFields_congr hv hs, ih]

theorem hsFetch_congr (hb : e'.regf.hsBase = e.regf.hsBase) (hm : e'.regf.hsMode = e.regf.hsMode) (line : Nat) :
    hsFetchA e' line = hsFetchA e line ∧ hsFetchB e' line = hsFetchB e line := by
  unfold hsFetchA hsFetchB hsSlotAddr; simp only [memRead2_congr hv, hb, hm]; exact ⟨trivial, trivial⟩

variable (hp : e'.pal = e.pal)
include hp

theorem tileOver_congr (n : NtEntry) (subrow : BitVec 3) (i : Nat) (c : PixelCell) :
    tileOver e' n subrow i c = tileOver e n subrow i c := by
  unfold tileOver tilePixel storedPixel paint palRead; simp only [memRead1_congr hv, hp]

theorem runAt_congr (subrow : BitVec 3) (ncols : Nat) (x : Int) (addr : Nat) (y : Int) (c : PixelCell) :
    runAt e' subrow ncols x addr y c = runAt e subrow ncols x addr y c := by
  unfold runAt runEntry; simp only [tileOver_congr hv hp, memRead2_congr hv]

theorem planeAt_congr (wt ht line base h v : Nat) (y : Int) (c : PixelCell) :
    planeAt e' wt ht line base h v y c = planeAt e wt ht line base h v y c := by
  unfold planeAt pass1At pass2At; simp only [runAt_congr hv hp]

theorem windowAt_congr (hw : e'.regf.baseW = e.regf.baseW) (line : Nat) (y : Int) (c : PixelCell) :
    windowAt e' line y c = windowAt e line y c := by
  unfold windowAt windowRowAddr; simp only [runAt_congr hv hp, hw]

/-- The whole sprite layer: chain, plan and draws. -/
theorem spriteLayer_congr (hs : e'.regf.satBase = e.regf.satBase) (line : Nat) (y : Int) (c : PixelCell) :
    spritesAt e' line (spritePlan e' line (spriteChain e')).plan y c =
      spritesAt e line (spritePlan e line (spriteChain e)).plan y c := by
  rw [spriteChain_congr hv hs, spritePlan_congr hv hs]
  unfold spritesAt spriteAt; simp only [sprFields_congr hv hs, tileOver_congr hv hp]

end Layers

/-- The fields a render reads decide its pixels; plane A's only where the window does not replace it. -/
theorem rowPixel_congr {e e' : Snapshot} {line k : Nat} (h1 : e'.vram = e.vram) (h2 : e'.pal = e.pal) (h3 : e'.vsB = e.vsB)
    (r1 : e'.regf.dispDisable = e.regf.dispDisable) (r2 : e'.regf.planeEn = e.regf.planeEn)
    (r3 : e'.regf.baseB = e.regf.baseB) (r4 : e'.regf.baseW = e.regf.baseW) (r5 : e'.regf.satBase = e.regf.satBase)
    (r6 : e'.regf.hsBase = e.regf.hsBase) (r7 : e'.regf.winVpos = e.regf.winVpos)
    (r8 : e'.regf.winDown = e.regf.winDown) (r9 : e'.regf.hsMode = e.regf.hsMode)
    (r10 : e'.regf.planeWCode = e.regf.planeWCode) (r11 : e'.regf.planeHCode = e.regf.planeHCode)
    (r12 : e'.regf.backdrop = e.regf.backdrop)
    (hA : windowSelected e.regf line ≠ true → e'.regf.baseA = e.regf.baseA ∧ e'.vsA = e.vsA) :
    rowPixel e line k = rowPixel e' line k := by
  have hbd : backdropCell e' = backdropCell e := by unfold backdropCell palRead; rw [r12, h2]
  have hpl : ∀ base h v y c, planeOf e' line base h v y c = planeOf e line base h v y c := by
    intros; unfold planeOf; simp only [planeAt_congr h1 h2, r10, r11]
  have hws : windowSelected e'.regf line = windowSelected e.regf line := by unfold windowSelected; rw [r7, r8]
  have hh := hsFetch_congr h1 r6 r9 line
  unfold rowPixel layeredCell layersAt
  simp only [r1, r2, r3, hbd, spriteLayer_congr h1 h2 r5, windowAt_congr h1 h2 r4, hpl, hh.1, hh.2, h3, hws]
  by_cases hx : windowSelected e.regf line = true
  · simp only [hx, if_true]
  · obtain ⟨a, b⟩ := hA hx
    simp only [hx, a, b]

end Sys2Proof.Machine
end

