-- ==== Sys2Proof/Tests/Slice0.lean ====
section
/-! SUPPORT. Own tests: the ill-formed terms, words of every operation written out bit by bit, one step of each operation
with the result that spec/95_test_vectors.md (V…, S…) or a rule gives, and a state for the hypotheses of every
statement. -/

namespace Sys2Proof.Tests

-- One theorem at a time: the kernel evaluates most of them, and side by side they take a thread's memory each.
set_option Elab.async false

open Sys2Proof.Machine Sys2Proof.Safety Sys2Proof.Picture Sys2Proof.Claims

/-! ### Small states -/

/-- Video memory with these bytes, which rise in address. -/
def vramOf (l : List (Nat × Byte)) : Memory := l.filter fun c => c.2 ≠ 0#8

/-- The same byte `n` times from address `a` on. -/
def fillBytes (a n : Nat) (b : Byte) : List (Nat × Byte) := (List.range n).map fun k => (a + k, b)

/-- Bytes in a row from address `a` on. -/
def bytesAt (a : Nat) (l : List Byte) : List (Nat × Byte) := (List.range l.length).zip l |>.map fun c => (a + c.1, c.2)

/-- A palette of zeros with these colours. -/
def palOf (l : List (BitVec 6 × Color)) : Palette := l.foldl (fun p c => p.write c.1 c.2) Snapshot.reset.pal

/-- The state after reset with other stores. -/
def box (f : RegFields) (vram : List (Nat × Byte)) (pal : List (BitVec 6 × Color)) : State :=
  { State.reset with ext := { vram := vramOf vram, pal := palOf pal, vsA := 0, vsB := 0, regf := f } }

/-- All fields zero. -/
def noFields : RegFields := Snapshot.reset.regf

/-- A line buffer that holds one cell everywhere. -/
def lbOf (r g b prio : Byte) : LineBuf := LineBuf.fill { r := r, g := g, b := b, prio := prio }

/-- The outcome is a next state of which `p` holds. -/
def goesTo (o : Host.Outcome State Fault Refusal) (p : State → Bool) : Bool :=
  match o with
  | .next t => p t
  | _ => false

/-- The cell at `x` holds these four numbers. -/
def cellIs (s : State) (x : Int) (r g b prio : Byte) : Bool :=
  decide (s.work.lb.cell x = some { r := r, g := g, b := b, prio := prio })

/-- Pixel `k` of the answer. -/
def pixelIs (s : State) (k : Nat) (r g b : Byte) : Bool :=
  match s.response with
  | some (.row row) => decide (row.pixels[k]? = some { r := r, g := g, b := b })
  | _ => false

/-- Status and cause of the answer. -/
def faultIs (s : State) (status cause : Nat) : Bool :=
  match s.response with
  | some r => decide (r.status = status ∧ r.cause = cause)
  | none => false

/-! ### Ill-formed operations -/

theorem test_line_224_is_ill_formed : (Instr.render 224).wellFormed = false ∧ (Instr.render 223).wellFormed = true ∧
    (Instr.plane 224 0 0 0).wellFormed = false ∧ (Instr.sprites 255).wellFormed = false := by decide

theorem test_draw_outside_is_ill_formed : (Instr.draw 352 ⟨0, 0, 0⟩ 0).wellFormed = false ∧
    (Instr.draw (-33) ⟨0, 0, 0⟩ 0).wellFormed = false ∧ (Instr.draw 351 ⟨0, 0, 0⟩ 0).wellFormed = true := by decide

theorem test_patdec_outside_is_ill_formed : (Instr.patdec 345 (.entry 0) 0).wellFormed = false ∧
    (Instr.patdec (-33) (.entry 0) 0).wellFormed = false ∧ (Instr.patdec 344 (.entry 0) 0).wellFormed = true := by decide

theorem test_rowrun_outside_is_ill_formed : (Instr.rowrun 319 0 6 0).wellFormed = false ∧
    (Instr.rowrun (-32) 0 42 0).wellFormed = false ∧ (Instr.rowrun (-7) 0 41 0).wellFormed = true := by decide

/-! ### Decoding: code bytes written out from R107, operands as log 2 lays them out -/

theorem test_decode_stages :
    decode [0b00000000] = .ok (.clear, []) ∧ decode [0b00000001] = .ok (.dispgate, []) ∧
    decode [0b00000010] = .ok (.backdrop, []) ∧ decode [0b00000011] = .ok (.planegate, []) ∧
    decode [0b00000100] = .ok (.configcheck, []) ∧ decode [0b00000101, 0b00001101] = .ok (.scrollfetch 13, []) ∧
    decode [0b00000110, 0b00001010] = .ok (.planeb 10, []) ∧ decode [0b00000111, 0b01010000] = .ok (.winsel 80, []) ∧
    decode [0b00001000, 0b11011111] = .ok (.sprites 223, []) ∧ decode [0b00001001] = .ok (.done, []) := by decide

theorem test_decode_sprites :
    decode [0b00010111] = .ok (.sprtrav, []) ∧ decode [0b00011000, 0b01111111] = .ok (.sprdecode 127, []) ∧
    decode [0b00011001, 0b00001000] = .ok (.sprplan 8, []) ∧ decode [0b00011010, 0b00000111] = .ok (.sprdraw 7, []) := by
  decide

theorem test_decode_lines :
    decode [0b00010101, 0b01010000] = .ok (.window 80, []) ∧ decode [0b00010110, 0b01100100] = .ok (.hsfetch 100, []) ∧
    decode [0b00011111, 0b00001010] = .ok (.render 10, []) := by decide

theorem test_decode_expand : decode [0b00010000, 0b00000101] = .ok (.expand 5, []) := by decide

/-- DRAW(10, (1, 2, 7), 1): 10 + 32 = 42; the colour packs as 7 << 6 or 2 << 3 or 1 = 0b111010001 (R93). -/
theorem test_decode_draw : decode [0b00010001, 0b00000000, 0b00101010, 0b00000001, 0b11010001, 0b00000001] =
    .ok (.draw 10 ⟨1, 2, 7⟩ 1, []) := by decide

/-- PATDEC(-7, 0xD805, 2), in both forms: -7 + 32 = 25; R145 lists the fields of 0xD805. -/
theorem test_decode_patdec :
    decode [0b00010010, 0b00000000, 0b00011001, 0b11011000, 0b00000101, 0b00000010] =
      .ok (.patdec (-7) (.entry 0xD805) 2, []) ∧
    decode [0b00010010, 0b00000000, 0b00011001, 0b11011000, 0b00000101, 0b00001010] =
      .ok (.patdec (-7) (.fields { tile := 5, hflip := 1, vflip := 1, palrow := 2, prio := 1 }) 2, []) := by decide

/-- ROWRUN(125, 0xC000, 25, 0), R150's example: 125 + 32 = 157. -/
theorem test_decode_rowrun :
    decode [0b00010011, 0b00000000, 0b10011101, 0b11000000, 0b00000000, 0b00011001, 0b00000000] =
      .ok (.rowrun 125 0xC000 25 0, []) := by decide

/-- PLANE(15, 0xC000, 637, 250): 637 = 0b10_01111101, 250 = 0b00_11111010. -/
theorem test_decode_plane :
    decode [0b00010100, 0b00001111, 0b11000000, 0b00000000, 0b00000010, 0b01111101, 0b00000000, 0b11111010] =
      .ok (.plane 15 0xC000 637 250, []) := by decide

/-- R91's fields, from the entry of R195's example, 0xE834. -/
theorem test_entry_fields : NtEntry.ofWord 0xE834 = { tile := 0x034, hflip := 1, vflip := 0, palrow := 3, prio := 1 } := by
  decide

theorem test_unused_codes_do_not_decode : decode [0b00001010] = .error (.unusedCode 10) ∧
    decode [0b00011110] = .error (.unusedCode 30) ∧ decode [0b00011111] = .error .truncated := by decide

/-! ### The compositor -/

/-- V1. -/
theorem test_expand_table : (List.range 8).map (fun v => (expand (BitVec.ofNat 3 v)).toNat) =
    [0, 36, 73, 109, 146, 182, 219, 255] := by decide

/-- V2.1 to V2.3: two draws at one cell. -/
theorem test_draw_pairs :
    (composite ⟨0, 7, 0⟩ 1 (composite ⟨7, 0, 0⟩ 0 clearedCell) = ⟨0, 255, 0, 1⟩) ∧
    (composite ⟨7, 0, 0⟩ 0 (composite ⟨0, 7, 0⟩ 1 clearedCell) = ⟨0, 255, 0, 1⟩) ∧
    (composite ⟨0, 0, 7⟩ 1 (composite ⟨7, 0, 0⟩ 1 clearedCell) = ⟨0, 0, 255, 1⟩) := by decide

theorem test_draw_at_the_edges : goesTo (exec (.draw 351 ⟨4, 5, 6⟩ 0) State.reset)
    (fun t => cellIs t 351 146 182 219 0 && cellIs t 350 0 0 0 0) = true ∧
    goesTo (exec (.draw (-32) ⟨4, 5, 6⟩ 1) State.reset) (fun t => cellIs t (-32) 146 182 219 1) = true := by decide +kernel

/-! ### Tiles and runs -/

/-- The palette of V3, `PAL[i] = (i and 7, (i >> 3) and 7, 0)`, and its tile 5. -/
def v3State : State :=
  box noFields (bytesAt 0xA8 [0x12, 0x30, 0x04, 0x56] ++ bytesAt 0xB4 [0x0A, 0xB0, 0xCD, 0x0E])
    ((List.range 64).map fun i => (BitVec.ofNat 6 i, ⟨BitVec.ofNat 3 i, BitVec.ofNat 3 (i / 8), 0⟩))

/-- V3.1 and V3.2. -/
theorem test_patdec_plain_and_hflip :
    goesTo (exec (.patdec 10 (.entry 0x0005) 2) v3State) (fun t => cellIs t 10 36 0 0 0 && cellIs t 12 109 0 0 0 &&
      cellIs t 13 0 0 0 0 && cellIs t 15 146 0 0 0 && cellIs t 17 219 0 0 0) = true ∧
    goesTo (exec (.patdec 10 (.entry 0x0805) 2) v3State) (fun t => cellIs t 10 219 0 0 0 && cellIs t 12 146 0 0 0 &&
      cellIs t 14 0 0 0 0 && cellIs t 15 109 0 0 0 && cellIs t 17 36 0 0 0) = true := by decide +kernel

/-- V3.4, in the field form. -/
theorem test_patdec_fields : goesTo
    (exec (.patdec 10 (.fields { tile := 5, hflip := 1, vflip := 1, palrow := 2, prio := 1 }) 2) v3State)
    (fun t => cellIs t 10 219 182 0 1 && cellIs t 11 0 0 0 0 && cellIs t 12 182 182 0 1 && cellIs t 16 73 182 0 1 &&
      cellIs t 17 0 0 0 0) = true := by decide +kernel

/-- V4.3: the second entry of the run is read at address 0, where the entry 0x0005 stands. -/
theorem test_rowrun_wraps_in_memory : goesTo (exec (.rowrun 0 0xFFFE 2 2)
      { v3State with ext := { v3State.ext with vram := v3State.ext.vram.write 1 5 } })
    (fun t => cellIs t 8 36 0 0 0 && cellIs t 0 0 0 0 0 && cellIs t 15 219 0 0 0) = true := by decide +kernel

/-! ### Planes and window -/

/-- V5.1, V5.7, V5.14, V5.22, V5.23: the geometry of a line. -/
theorem test_plane_geometry :
    (let p := planeLine 64 32 15 0 637 250; p.sx = 125 ∧ ceil8 (320 - p.sx) = 25 ∧ p.off / 8 = 48 ∧ p.off % 8 = 3 ∧
      pass2Columns 64 p = 16 ∧ p.rowAddr = 128 ∧ p.subrow = 1) ∧
    (let p := planeLine 64 32 0 0 511 0; p.off / 8 = 0 ∧ p.off % 8 = 1 ∧ pass2Columns 64 p = 41) ∧
    (let p := planeLine 32 64 223 0 637 1023; p.sx = 125 ∧ p.off / 8 = 16 ∧ pass2Columns 32 p = 16 ∧ p.rowAddr = 1728 ∧
      p.subrow = 6) := by decide

/-- The fields of S2. -/
def s2Fields : RegFields :=
  { noFields with planeEn := 1, baseA := 0xC000, baseB := 0xE000, baseW := 0xB000, hsBase := 0xFC00, satBase := 0xF800,
                  planeWCode := 1 }

/-- The stores of S2, without the tile rows that line 0 does not read. -/
def s2State : State :=
  box s2Fields (fillBytes 0x20 4 0x11 ++ fillBytes 0x40 4 0x22 ++ fillBytes 0x60 4 0x33 ++
    [(0xC001, 1), (0xC061, 2), (0xC07F, 2)] ++ bytesAt 0xE000 [0xA0, 0x03] ++ bytesAt 0xE01E [0x20, 0x03] ++
    bytesAt 0xFC00 [0x02, 0x7D])
    [(0, ⟨1, 1, 1⟩), (1, ⟨7, 0, 0⟩), (2, ⟨0, 7, 0⟩), (19, ⟨0, 0, 7⟩)]

/-- S2's plane A alone: columns 48 and 63 end at 4 and 124, column 0 starts at 125. -/
theorem test_plane_wraps : goesTo (exec (.plane 0 0xC000 637 0) s2State) (fun t => cellIs t (-3) 0 255 0 0 &&
    cellIs t 4 0 255 0 0 && cellIs t 5 0 0 0 0 && cellIs t 117 0 255 0 0 && cellIs t 124 0 255 0 0 &&
    cellIs t 125 255 0 0 0 && cellIs t 133 0 0 0 0) = true := by decide +kernel

/-- S2's plane B, by the stage. -/
theorem test_planeb : goesTo (exec (.planeb 0) s2State) (fun t => cellIs t 0 0 0 255 1 && cellIs t 8 0 0 0 0 &&
    cellIs t 120 0 0 255 0 && decide (t.stage = some .winOrPlaneA)) = true := by decide +kernel

/-- V5b.2: line 80 of the window reads from BASE_W + 0x500. -/
theorem test_window_row : goesTo (exec (.window 80) (box s2Fields (fillBytes 0x20 4 0x11 ++ [(0xB503, 1)]) [(1, ⟨7, 0, 0⟩)]))
    (fun t => cellIs t 8 255 0 0 0 && cellIs t 7 0 0 0 0 && cellIs t 16 0 0 0 0) = true := by decide +kernel

/-- V11.1, V11.2, V11.3, V11.5, V11.7: the window selection. -/
theorem test_window_selection :
    (let f := { noFields with winVpos := 10 };
      windowSelected f 79 = true ∧ windowSelected f 80 = true ∧ windowSelected f 81 = false) ∧
    (let f := { noFields with winVpos := 10, winDown := 1 }; windowSelected f 79 = false ∧ windowSelected f 80 = true) ∧
    windowSelected noFields 0 = false ∧ windowSelected { noFields with winVpos := 28, winDown := 1 } 223 = false ∧
    windowSelected { noFields with winVpos := 1 } 8 = true ∧ windowSelected { noFields with winVpos := 1 } 9 = false := by
  decide

/-- T6: with the up-trigger at 10, line 80 draws the window and line 81 plane A. -/
theorem test_winsel :
    (let s := box { s2Fields with winVpos := 10 } (fillBytes 0x20 8 0x11 ++ fillBytes 0x40 8 0x22 ++ [(0xB501, 1), (0xC501, 2)])
        [(1, ⟨7, 0, 0⟩), (2, ⟨0, 7, 0⟩)]
     goesTo (exec (.winsel 80) s) (fun t => cellIs t 0 255 0 0 0) = true ∧
     goesTo (exec (.winsel 81) s) (fun t => cellIs t 0 0 255 0 0) = true) := by decide +kernel

/-! ### Scroll fetch -/

/-- V6: slot 13 and slot 96 of the table at 0xFC00. -/
def v6State (mode : BitVec 2) : State :=
  box { noFields with hsBase := 0xFC00, hsMode := mode }
    (bytesAt 0xFC14 [0xF0, 5, 5, 5] ++ bytesAt 0xFC34 [0xF0, 13, 5, 13] ++ bytesAt 0xFD80 [0xF0, 96, 5, 96]) []

/-- V6: mode 3 of line 13, mode 2 of line 100, mode 1 of line 13. -/
theorem test_hsfetch :
    goesTo (exec (.hsfetch 13) (v6State 3)) (fun t => decide (t.ret = some (.scroll 13 269))) = true ∧
    goesTo (exec (.hsfetch 100) (v6State 2)) (fun t => decide (t.ret = some (.scroll 96 352))) = true ∧
    goesTo (exec (.hsfetch 13) (v6State 1)) (fun t => decide (t.ret = some (.scroll 5 261))) = true := by decide +kernel

theorem test_scrollfetch : goesTo (exec (.scrollfetch 13)
      { v6State 3 with ext := { (v6State 3).ext with vsA := 1023, vsB := 7 } })
    (fun t => decide (t.work.hsA = 13 ∧ t.work.hsB = 269 ∧ t.work.vsA = 1023 ∧ t.work.vsB = 7 ∧ t.stage = some .planeB)) =
    true := by decide +kernel

/-! ### Sprites -/

/-- A sprite table at 0xE000. -/
def satState (l : List (Nat × Byte)) : State := box { noFields with satBase := 0xE000 } l []

/-- V7.1. -/
theorem test_sprtrav_cycle : goesTo (exec .sprtrav (satState [(0xE003, 5), (0xE013, 5), (0xE02B, 2)]))
    (fun t => decide (t.work.chain.length = 64 ∧ t.work.chain.take 4 = [0, 5, 2, 5] ∧ t.work.chain.count 5 = 32 ∧
      t.work.chain.count 2 = 31)) = true := by decide +kernel

/-- V7.4 and V7.6. -/
theorem test_sprtrav_links : goesTo (exec .sprtrav (satState [(0xE003, 127)])) (fun t => decide (t.work.chain = [0, 127])) = true ∧
    goesTo (exec .sprtrav (satState [(0xE003, 0x80)])) (fun t => decide (t.work.chain = [0])) = true := by decide +kernel

/-- V8.1. -/
theorem test_sprdecode_ignored_bits : sprFields (satState (bytesAt 0xE000 [0xFC, 0x90, 0xF7, 0x85, 0xE8, 0x34, 0xFD, 0x23])).ext 0 =
    { y := 16, sh := 4, sw := 2, link := 5, ref := 0xE834, x := 163 } := by decide +kernel

/-- V8.3. -/
theorem test_sprdecode_largest : sprFields (satState (bytesAt 0xE3F8 [0x03, 0xFF, 0x0F, 0x7F, 0xFF, 0xFF, 0x03, 0xFF])).ext 127 =
    { y := 895, sh := 4, sw := 4, link := 127, ref := 0xFFFF, x := 895 } := by decide +kernel

/-- The 8 bytes of a sprite at y = 0, one cell high. -/
def sprite (sw : Nat) (x : Int) : List Byte :=
  [0, 128, BitVec.ofNat 8 ((sw - 1) * 4), 0, 0, 0, BitVec.ofInt 8 ((x + 128) / 256), BitVec.ofInt 8 (x + 128)]

/-- Sprites of these widths and positions in table order, chained in that order. -/
def planned (l : List (Nat × Int)) : State :=
  let s := satState ((List.range l.length).flatMap fun k => bytesAt (0xE000 + 8 * k) (sprite (l.getD k (1, 0)).1 (l.getD k (1, 0)).2))
  s.setChain ((List.range l.length).map (BitVec.ofNat 7))

/-- V9.3: the pixel limit cuts a sprite. -/
theorem test_sprplan_cuts_a_sprite : goesTo
    (exec (.sprplan 0) (planned [(4, 0), (4, 0), (4, 0), (4, 0), (4, 0), (4, 0), (4, 0), (3, 0), (4, 0), (1, 0)]))
    (fun t => decide (t.work.plan.map (fun q => (q.index.toNat, q.cells)) =
      [(0, 4), (1, 4), (2, 4), (3, 4), (4, 4), (5, 4), (6, 4), (7, 3), (8, 1)] ∧ t.work.nspr = 9 ∧ t.work.npix = 256)) =
    true := by decide +kernel

/-- V9.4 and V9.5: the horizontal clip, and a line the sprites are not on. -/
theorem test_sprplan_clip : goesTo (exec (.sprplan 0) (planned [(2, -16), (2, -15), (1, 320), (1, 319)]))
    (fun t => decide (t.work.plan.map (fun q => (q.index.toNat, q.cells)) = [(0, 0), (1, 2), (2, 0), (3, 1)] ∧
      t.work.nspr = 4 ∧ t.work.npix = 24)) = true ∧
    goesTo (exec (.sprplan 8) (planned [(4, 0)])) (fun t => decide (t.work.plan = [] ∧ t.work.nspr = 0)) = true := by
  decide +kernel

/-- V10.1 to V10.4 and V10.6: the tiles of the cell columns. -/
theorem test_cell_tiles :
    (let d : SprEntry := { y := 0, sh := 2, sw := 3, link := 0, ref := 0x0100, x := 0 };
      (List.range 3).map (fun p => (cellTile d 9 p).toNat) = [0x101, 0x103, 0x105]) ∧
    (let d : SprEntry := { y := 0, sh := 2, sw := 3, link := 0, ref := 0x0900, x := 0 };
      (List.range 3).map (fun p => (cellTile d 9 p).toNat) = [0x105, 0x103, 0x101]) ∧
    (let d : SprEntry := { y := 0, sh := 2, sw := 3, link := 0, ref := 0x1100, x := 0 };
      (List.range 3).map (fun p => (cellTile d 9 p).toNat) = [0x100, 0x102, 0x104]) ∧
    (let d : SprEntry := { y := 0, sh := 4, sw := 4, link := 0, ref := 0x1900, x := 0 };
      (List.range 4).map (fun p => (cellTile d 0 p).toNat) = [0x10F, 0x10B, 0x107, 0x103]) ∧
    (let d : SprEntry := { y := 0, sh := 4, sw := 4, link := 0, ref := 0x07F8, x := 0 };
      (List.range 4).map (fun p => (cellTile d 31 p).toNat) = [0x7FB, 0x7FF, 0x003, 0x007] ∧ cellSubrow d 31 = 7) := by decide

/-- The stores of S3, without the tile rows that line 0 does not read. -/
def s3State : State :=
  box { s2Fields with winVpos := 1 } (fillBytes 0x20 4 0x11 ++ fillBytes 0x40 4 0x22 ++ fillBytes 0x60 4 0x33 ++
    bytesAt 0x80 [0x12, 0x30, 0x00, 0x01] ++ bytesAt 0xB002 [0x80, 0x03] ++ bytesAt 0xB006 [0x00, 0x03] ++
    [(0xC005, 2), (0xC085, 2)] ++ bytesAt 0xF800 [0x00, 0x80, 0x00, 0x01, 0x00, 0x01, 0x00, 0x84] ++
    bytesAt 0xF808 [0x00, 0x80, 0x00, 0x02, 0x80, 0x02, 0x00, 0x88] ++
    bytesAt 0xF810 [0x00, 0x80, 0x04, 0x00, 0x48, 0x04, 0x00, 0xA8])
    [(0, ⟨1, 1, 1⟩), (1, ⟨7, 0, 0⟩), (2, ⟨0, 7, 0⟩), (3, ⟨0, 0, 7⟩), (33, ⟨7, 7, 0⟩), (34, ⟨0, 7, 7⟩), (35, ⟨7, 0, 7⟩)]

/-- S3's sprites over a cleared buffer. -/
theorem test_sprdraw : goesTo (exec (.sprdraw 0) (s3State.setPlan 3 32 [⟨0, 1⟩, ⟨1, 1⟩, ⟨2, 2⟩]))
    (fun t => cellIs t 4 255 0 0 0 && cellIs t 8 0 255 0 1 && cellIs t 47 0 0 0 0 && cellIs t 48 255 255 0 0 &&
      cellIs t 53 255 0 255 0 && cellIs t 54 0 255 255 0) = true := by decide +kernel

theorem test_sprites : goesTo (exec (.sprites 0) s3State)
    (fun t => decide (t.work.chain = [0, 1, 2] ∧ t.work.plan = [⟨0, 1⟩, ⟨1, 1⟩, ⟨2, 2⟩] ∧ t.stage = some .done) &&
      cellIs t 11 0 255 0 1 && cellIs t 55 255 255 0 0) = true := by decide +kernel

/-! ### The other stages -/

/-- R218. -/
theorem test_clear : goesTo (exec .clear (State.reset.setLb (lbOf 1 2 3 1)))
    (fun t => cellIs t (-32) 0 0 0 0 && cellIs t 351 0 0 0 0 && decide (t.stage = some .dispGate)) = true := by decide +kernel

/-- R219. -/
theorem test_dispgate : goesTo (exec .dispgate State.reset) (fun t => decide (t.stage = some .backdrop)) = true ∧
    goesTo (exec .dispgate (box { noFields with dispDisable := 1 } [] [])) (fun t => decide (t.stage = some .done)) = true := by
  decide +kernel

/-- R230: the backdrop of palette entry 0, and a cell of priority 1 that it overwrites. -/
theorem test_backdrop : goesTo (exec .backdrop ((box noFields [] [(0, ⟨5, 2, 7⟩)]).setLb (lbOf 9 9 9 1)))
    (fun t => cellIs t (-32) 182 73 255 0 && cellIs t 319 182 73 255 0) = true := by decide +kernel

/-- R221. -/
theorem test_planegate : goesTo (exec .planegate State.reset) (fun t => decide (t.stage = some .done)) = true ∧
    goesTo (exec .planegate (box { noFields with planeEn := 1 } [] [])) (fun t => decide (t.stage = some .configCheck)) = true := by
  decide +kernel

/-- V12.5 and V12.4. -/
theorem test_configcheck :
    goesTo (exec .configcheck (box { noFields with interlace := 2, planeWCode := 2 } [] [])) (fun t => faultIs t 1 1) = true ∧
    goesTo (exec .configcheck (box { noFields with planeHCode := 2 } [] [])) (fun t => faultIs t 2 4) = true := by decide +kernel

/-- R227: the leftmost pixel is cell 0, not a cell of the padding. -/
theorem test_done : goesTo (exec .done (State.reset.setLb ((lbOf 0 0 0 0).put 0 ⟨1, 2, 3, 1⟩)))
    (fun t => pixelIs t 0 1 2 3 && pixelIs t 1 0 0 0 && faultIs t 0 0 && decide (t.stage = none)) = true := by decide +kernel

/-- S2, at the places where its response changes. -/
theorem test_render_s2 : goesTo (exec (.render 0) s2State)
    (fun t => pixelIs t 0 0 0 255 && pixelIs t 7 0 0 255 && pixelIs t 8 36 36 36 && pixelIs t 117 0 255 0 &&
      pixelIs t 124 0 255 0 && pixelIs t 125 255 0 0 && pixelIs t 132 255 0 0 && pixelIs t 133 36 36 36) = true := by
  decide +kernel

/-- S3, at some of the places where its response changes. -/
theorem test_render_s3 : goesTo (exec (.render 0) s3State)
    (fun t => pixelIs t 3 36 36 36 && pixelIs t 4 255 0 0 && pixelIs t 8 0 255 0 && pixelIs t 15 0 255 0 &&
      pixelIs t 24 0 0 255 && pixelIs t 32 36 36 36 && pixelIs t 53 255 0 255 && pixelIs t 54 0 255 255 &&
      pixelIs t 319 36 36 36) = true := by decide +kernel

/-- R97: a request the caller makes on the idle block is served by one step (S1). -/
theorem test_step_serves_a_request : goesTo (step { box noFields [] [(0, ⟨5, 2, 7⟩)] with inputs := [.request 10] })
    (fun t => pixelIs t 0 182 73 255 && pixelIs t 319 182 73 255 && decide (t.inputs = [])) = true := by decide +kernel

/-- Log 17: a placed word is what the next step runs. -/
theorem test_placed_words_run : goesTo (step (State.reset.withFetchWord 16 (5 * 256 + 16)))
    (fun t => decide (t.ret = some (.channel 182))) = true ∧
    goesTo (step (State.reset.withFetchWord 8 1)) (fun t => decide (t.stage = some .backdrop)) = true ∧
    goesTo (step (State.reset.withFetchWord 16 (223 * 256 + 31))) (fun t => pixelIs t 0 0 0 0) = true := by decide +kernel

/-! ### A state for the hypotheses of every statement -/

/-- A render in progress at a stage. -/
def atStage (f : RegFields) (st : Stage) : State := { box f [] [] with stage := some st }

/-- A called operation to be run on its own. -/
def calling (bs : List Byte) : State := { State.reset with call := bs }

/-- The block idle, with these acts of the outside to come. -/
def asked (l : List Input) : State := { State.reset with inputs := l }

/-- Fields of planes that are enabled, with these size codes. -/
def planeFields (w h : BitVec 2) : RegFields := { noFields with planeEn := 1, planeWCode := w, planeHCode := h }

/-- Operations at the ends of their operands' ranges. -/
theorem witness_DecodeOfEncodeIsIdentity : (Instr.draw (-32) ⟨7, 7, 7⟩ 1).wellFormed = true ∧
    (Instr.draw 351 ⟨0, 0, 0⟩ 0).wellFormed = true ∧ (Instr.patdec 344 (.fields default) 7).wellFormed = true ∧
    (Instr.rowrun (-32) 0xFFFF 41 7).wellFormed = true ∧ (Instr.rowrun 352 0 0 0).wellFormed = true ∧
    (Instr.plane 223 0xFFFF 1023 1023).wellFormed = true ∧ (Instr.sprdecode 127).wellFormed = true := by decide

theorem witness_UnusedCodesAreRefused : ∀ b ∈ [10#8, 15#8, 27#8, 30#8, 0xEA#8],
    (calling [b]).inputs = [] ∧ (calling [b]).call = b :: [] ∧
    ((10 ≤ b.toNat % 32 ∧ b.toNat % 32 ≤ 15) ∨ (27 ≤ b.toNat % 32 ∧ b.toNat % 32 ≤ 30)) := by decide

theorem witness_StepRunsTheDecodedOperation :
    ((calling [16, 5]).busy = true ∧ (calling [16, 5]).inputs = [] ∧
      decode (calling [16, 5]).nextOperation = .ok (.expand 5, [])) ∧
    ((atStage noFields .clear).busy = true ∧ (atStage noFields .clear).inputs = [] ∧
      decode (atStage noFields .clear).nextOperation = .ok (.clear, [0])) ∧
    ((asked [.request 223]).busy = false ∧ (asked [.request 223]).inputs = .request 223 :: []) := by decide +kernel

theorem witness_StageRunsItsOperation : ∀ st ∈ [Stage.clear, .done], (atStage noFields st).stage = some st ∧
    (atStage noFields st).call = [] ∧ (atStage noFields st).inputs = [] := by decide

theorem witness_WritesBetweenRendersAreSeen :
    (State.reset.busy = false ∧ State.reset.ext.vram.wf = true ∧ State.reset.inputs = []) ∧
    ((asked [.write (.vram 0xFFFF 1)]).busy = false ∧ (asked [.write (.vram 0xFFFF 1)]).ext.vram.wf = true ∧
      (asked [.write (.vram 0xFFFF 1)]).inputs = .write (.vram 0xFFFF 1) :: []) := by decide

/-- One act of each kind, the fields at both ends of the list and at their largest values. -/
theorem witness_StoreWritesBetweenRendersAreSeen : ∀ w ∈ [ExtWrite.pal 63 ⟨7, 7, 7⟩, .vscroll .a 0xFFFF, .vscroll .b 0,
      .field (.dispDisable 1), .field (.baseA 0xFFFF), .field (.winVpos 31), .field (.interlace 3), .reg 18 0xFF],
    (asked [.write w]).busy = false ∧ (asked [.write w]).inputs = .write w :: [] := by decide

theorem witness_BrokenDutiesAreRefused : ∀ i ∈ [Input.request 0, .write (.vram 0 0)],
    ({ atStage noFields .planeB with inputs := [i] } : State).stage.isSome = true ∧
    ({ atStage noFields .planeB with inputs := [i] } : State).inputs = i :: [] := by decide

theorem witness_ResetIsIdleAndServes : (223 : Byte).toNat < 224 ∧ (0 : Byte).toNat < 224 := by decide

theorem witness_RegisterBytesBindTheirFields : ∀ n ∈ [6#5, 8#5, 14#5, 19#5, 31#5],
    n.toNat ∉ [0, 1, 2, 3, 4, 5, 7, 11, 12, 13, 16, 17, 18] := by decide

theorem witness_TheBlockWritesNoExternalState : exec .sprtrav State.reset = .next (State.reset.setChain (spriteChain State.reset.ext)) :=
  rfl

/-- Both edges of the buffer; a cell that is written and one that is not. -/
theorem witness_DrawWritesWhenPriorityIsAtLeastTheCells :
    ((-32 : Int) ≤ -32 ∧ (-32 : Int) ≤ 351) ∧ ((-32 : Int) ≤ 351 ∧ (351 : Int) ≤ 351) ∧
    ((lbOf 0 0 0 1).cell (-32) = some ⟨0, 0, 0, 1⟩ ∧ (1 : Byte).toNat ≤ (1 : BitVec 1).toNat) ∧
    ((lbOf 0 0 0 1).cell 351 = some ⟨0, 0, 0, 1⟩ ∧ (0 : BitVec 1).toNat < (1 : Byte).toNat) := by decide +kernel

theorem witness_PriorityThenOrderDecides : State.reset.work.lb.cell 351 = some ⟨0, 0, 0, 0⟩ ∧
    ((0 : Byte).toNat ≤ (1 : BitVec 1).toNat ∧ (0 : BitVec 1).toNat < (1 : BitVec 1).toNat) ∧
    ((0 : Byte).toNat ≤ (0 : BitVec 1).toNat ∧ (0 : BitVec 1).toNat ≤ (0 : BitVec 1).toNat) := by decide +kernel

theorem witness_LastOfTheHighestPriorityShows : State.reset.work.lb.cell 0 = some ⟨0, 0, 0, 0⟩ ∧
    (0 : Byte).toNat ≤ (1 : BitVec 1).toNat ∧
    (∀ d ∈ [((⟨7, 0, 0⟩ : Color), (1 : BitVec 1)), (⟨1, 1, 1⟩, 0)], d.2.toNat ≤ (1 : BitVec 1).toNat) ∧
    (∀ d ∈ [((⟨0, 0, 7⟩ : Color), (0 : BitVec 1))], d.2.toNat < (1 : BitVec 1).toNat) := by decide +kernel

theorem witness_PriorityNeverDecreases :
    ((Instr.sprtrav ≠ .clear ∧ Instr.sprtrav ≠ .backdrop ∧ Instr.sprtrav ≠ .done ∧ Instr.sprtrav.kind ≠ .request) ∧
      exec .sprtrav State.reset = .next (State.reset.setChain (spriteChain State.reset.ext))) ∧
    (Instr.configcheck.kind ≠ .request ∧ configFault State.reset.ext.regf = none ∧
      exec .configcheck State.reset = .next (State.reset.atStage .scrollFetch)) ∧
    State.reset.work.lb.cell 0 = some ⟨0, 0, 0, 0⟩ := by
  refine ⟨⟨by decide, rfl⟩, ⟨by decide, rfl, rfl⟩, by decide +kernel⟩

theorem witness_PatdecShowsItsEightPixels : ((-32 : Int) ≤ -32 ∧ (-32 : Int) + 7 ≤ 351) ∧
    ((-32 : Int) ≤ 344 ∧ (344 : Int) + 7 ≤ 351) := by decide

/-- The last tile of video memory, all zero after reset, and a state in which another tile is not. -/
theorem witness_EmptyTilesDrawNothing : ∀ k < 32,
    memRead1 (box noFields [(0x20, 0x11)] []).ext ((2047#11).toNat * 32 + k) = 0#8 := by decide +kernel

theorem witness_RowrunShowsItsRun : ((-32 : Int) ≤ -32 ∧ (-32 : Int) + 8 * ((48 : Nat) : Int) ≤ 352) ∧
    ((-32 : Int) ≤ 352 ∧ (352 : Int) + 8 * ((0 : Nat) : Int) ≤ 352) := by decide

theorem witness_DrawOutsideTheBufferFaults : ((-33 : Int) < -32 ∨ (351 : Int) < -33) ∧ ((352 : Int) < -32 ∨ (351 : Int) < 352) := by
  decide

theorem witness_PlaneShowsItsTwoPasses : (223 : Byte).toNat < 224 ∧
    SizeCode (box (planeFields 0 3) [] []).ext.regf.planeWCode 32 ∧ SizeCode (box (planeFields 0 3) [] []).ext.regf.planeHCode 128 ∧
    SizeCode (box (planeFields 1 0) [] []).ext.regf.planeWCode 64 := by
  unfold SizeCode; decide

theorem witness_WidePlanesAreWrappingStrips : (223 : Byte).toNat < 224 ∧
    (let f := (box (planeFields 1 0) [] []).ext.regf
     SizeCode f.planeWCode 64 ∧ SizeCode f.planeHCode 32 ∧ f.planeWCode ≠ 0#2) ∧
    (let f := (box (planeFields 3 0) [] []).ext.regf
     SizeCode f.planeWCode 128 ∧ SizeCode f.planeHCode 32 ∧ f.planeWCode ≠ 0#2) ∧
    (0 : Int) ≤ 0 ∧ (0 : Int) ≤ 319 ∧ (319 : Int) < 320 := by
  unfold SizeCode; decide

/-- The two clauses at a scroll of 0: the last position of the strip, the first past the row, and the last of the screen. -/
theorem witness_NarrowPlanesRunPastTheirRow : (223 : Byte).toNat < 224 ∧
    (box (planeFields 0 1) [] []).ext.regf.planeWCode = 0#2 ∧ SizeCode (box (planeFields 0 1) [] []).ext.regf.planeHCode 64 ∧
    (255 : Int) < (((0 : BitVec 10).toNat % 256 : Nat) : Int) + 256 ∧
    (((0 : BitVec 10).toNat % 256 : Nat) : Int) + 256 ≤ 256 ∧ (((63 : BitVec 10).toNat % 256 : Nat) : Int) + 256 ≤ 319 := by
  unfold SizeCode; decide

/-- Either code at 2; no threshold, and a line just past the window's last. -/
theorem witness_PlaneOfAReservedSizeIsRefused : (223 : Byte).toNat < 224 ∧ (81 : Byte).toNat < 224 ∧
    (let f := (box (planeFields 2 0) [] []).ext.regf; f.planeWCode = 2#2 ∧ ¬ WindowLine f 223) ∧
    (let f := (box { planeFields 0 2 with winVpos := 10 } [] []).ext.regf; f.planeHCode = 2#2 ∧ ¬ WindowLine f 81) := by
  unfold WindowLine; decide

theorem witness_WindowShowsFortyColumns : (223 : Byte).toNat < 224 := by decide

theorem witness_HsfetchReturnsTheLinesPair : (223 : Byte).toNat < 224 ∧ (v6State 0).ext.regf.hsMode = 0#2 ∧
    (v6State 1).ext.regf.hsMode = 1#2 ∧ (v6State 2).ext.regf.hsMode = 2#2 ∧ (v6State 3).ext.regf.hsMode = 3#2 := by decide +kernel

/-- V7.1's state meets both parts. -/
theorem witness_CyclesStopAtSixtyFour :
    (let s := satState [(0xE003, 5), (0xE013, 5), (0xE02B, 2)]
     sprLink s.ext 0#7 = 5#7 ∧ sprLink s.ext 5#7 = 2#7 ∧ sprLink s.ext 2#7 = 5#7 ∧
      goesTo (exec .sprtrav s) (fun t => decide (∀ i ∈ t.work.chain, sprLink s.ext i ≠ 0#7)) = true) := by decide +kernel

/-- A plan whose first sprite has cells and whose second, off the side at `x = 320`, has none. -/
theorem witness_SprplanStopsExactlyAtTheLimits : (223 : Byte).toNat < 224 ∧ (0 : Byte).toNat < 224 ∧
    goesTo (exec (.sprplan 0) (planned [(1, 319), (1, 320)])) (fun t => decide (t.work.plan = [⟨0, 1⟩, ⟨1, 0⟩])) = true := by
  decide +kernel

theorem witness_SprplanKeepsTheBudgets : exec (.sprplan 223) State.reset = .next (State.reset.planned 223) := rfl

/-- Planned cells at both ends of the buffer, and a planned sprite with no cells far outside it. -/
theorem witness_SprdrawDrawsTheTailFirst :
    (let s := (planned [(4, -32), (4, 320), (1, 800)]).setPlan 3 64 [⟨0, 4⟩, ⟨1, 4⟩, ⟨2, 0⟩]
     ∀ q ∈ s.work.plan, q.cells = 0 ∨
      (-32 ≤ (sprFields s.ext q.index).x ∧ (sprFields s.ext q.index).x + 8 * (q.cells : Int) ≤ 352)) ∧
    (223 : Byte).toNat < 224 := by decide +kernel

/-- The last line and column of a sprite that starts above the screen. -/
theorem witness_CellColumnsTakeColumnMajorTiles :
    (let d : SprEntry := { y := -31, sh := 4, sw := 4, link := 0, ref := 0xFFFF, x := 0 }
     d.y ≤ ((0 : Nat) : Int) ∧ ((0 : Nat) : Int) < d.y + 8 * (d.sh : Int) ∧ 3 < d.sw) := by decide

theorem witness_GatesMoveTheStageOnly : (box { noFields with dispDisable := 1 } [] []).ext.regf.dispDisable = 1#1 ∧
    State.reset.ext.regf.dispDisable = 0#1 ∧ State.reset.ext.regf.planeEn = 0#1 ∧
    (box (planeFields 0 0) [] []).ext.regf.planeEn = 1#1 := by decide

/-- One configuration for each clause, each but the last with every later condition holding too. -/
theorem witness_ConfigCheckRaisesTheFirstFault :
    (let f : RegFields := { planeFields 2 2 with interlace := 1, vsColumn := 1 }; f.interlace ≠ 0#2) ∧
    (let f : RegFields := { planeFields 2 2 with vsColumn := 1 }; f.interlace = 0#2 ∧ f.vsColumn = 1#1) ∧
    (let f := planeFields 2 2; f.interlace = 0#2 ∧ f.vsColumn = 0#1 ∧ f.planeWCode = 2#2) ∧
    (let f := planeFields 3 2; f.interlace = 0#2 ∧ f.vsColumn = 0#1 ∧ f.planeWCode ≠ 2#2 ∧ f.planeHCode = 2#2) ∧
    (let f := planeFields 3 3; f.interlace = 0#2 ∧ f.vsColumn = 0#1 ∧ f.planeWCode ≠ 2#2 ∧ f.planeHCode ≠ 2#2) := by decide

theorem witness_ScrollFetchLatchesFourValues : (223 : Byte).toNat < 224 := by decide

theorem witness_PlaneBStageDrawsPlaneB : (223 : Byte).toNat < 224 ∧ (atStage (planeFields 3 1) .planeB).ext.regf.planeWCode ≠ 2#2 ∧
    (atStage (planeFields 3 1) .planeB).ext.regf.planeHCode ≠ 2#2 := by decide

/-- Both triggers at their boundary line and the line beside it; the window with size codes that do not exist. -/
theorem witness_WindowReplacesPlaneAOnWholeLines :
    (let f : RegFields := { planeFields 2 2 with winVpos := 10, winDown := 1 }; WindowLine f 80 ∧ ¬ WindowLine f 79) ∧
    (let f : RegFields := { planeFields 3 0 with winVpos := 10 }
     WindowLine f 80 ∧ ¬ WindowLine f 81 ∧ f.planeWCode ≠ 2#2 ∧ f.planeHCode ≠ 2#2) ∧
    (80 : Byte).toNat < 224 := by
  unfold WindowLine; decide

theorem witness_SpritesStageIsItsThreeOperations : (223 : Byte).toNat < 224 := by decide

theorem witness_LinesPastTheScreenAreRefused : 224 ≤ (224 : Byte).toNat ∧ 224 ≤ (255 : Byte).toNat ∧ State.reset.stage = none := by
  decide

/-- An idle block that answers with a row, and one that answers with a fault. -/
theorem witness_RenderAnswersWithTheLayeredPicture :
    (s3State.stage = none ∧ (223 : Byte).toNat < 224 ∧ renderFault s3State.ext = none) ∧
    ((box (planeFields 0 2) [] []).stage = none ∧ renderFault (box (planeFields 0 2) [] []).ext = some .heightCode) := by decide +kernel

theorem witness_RenderIsItsStagesInTurn : s3State.stage = none ∧ s3State.call = [] ∧ s3State.inputs = [] ∧ (223 : Byte).toNat < 224 := by
  decide +kernel

theorem witness_DisabledDisplayIsBlack : (let s := box { planeFields 2 2 with dispDisable := 1 } [] []
    s.stage = none ∧ (223 : Byte).toNat < 224 ∧ s.ext.regf.dispDisable = 1#1) := by decide

theorem witness_DisabledPlanesShowTheBackdrop : (let s := box { noFields with planeWCode := 2 } [] []
    s.stage = none ∧ (223 : Byte).toNat < 224 ∧ s.ext.regf.dispDisable = 0#1 ∧ s.ext.regf.planeEn = 0#1) := by decide

/-- A configuration that faults and one that does not. -/
theorem witness_RenderFaultsExactlyOnTheFourConditions : State.reset.stage = none ∧ (223 : Byte).toNat < 224 ∧
    (let f := (box (planeFields 2 0) [] []).ext.regf; f.dispDisable = 0#1 ∧ f.planeEn = 1#1 ∧ f.planeWCode = 2#2) := by decide

theorem witness_FaultsLeaveNothingBehind :
    goesTo (exec (.render 0) (box (planeFields 0 2) [] [])) (fun t => decide (t.response = some (.fault .heightCode))) = true ∧
    (223 : Byte).toNat < 224 := by decide +kernel

/-- Two idle blocks that differ in everything but the stores. -/
theorem witness_ResponsesDependOnTheSnapshotAlone : (let s' := { State.reset.setLb (lbOf 1 2 3 1) with freeCount := 9, ret := some (.channel 3) }
    State.reset.stage = none ∧ s'.stage = none ∧ State.reset.ext = s'.ext ∧ State.reset ≠ s' ∧ (223 : Byte).toNat < 224) := by
  decide +kernel

theorem witness_HorizontalWindowFieldsChangeNothing : s3State.stage = none ∧ (0 : Byte).toNat < 224 := by decide +kernel

theorem witness_ColourZeroShowsOnlyAsBackdrop : s3State.stage = none ∧ (0 : Byte).toNat < 224 ∧ (48 : BitVec 6).toNat % 16 = 0 ∧
    48 ≠ s3State.ext.regf.backdrop := by decide +kernel

/-- The window's last line, for a request and for a render past ScrollFetch. -/
theorem witness_WindowLinesIgnorePlaneA :
    (s3State.stage = none ∧ (8 : Byte).toNat < 224 ∧ WindowLine s3State.ext.regf 8) ∧
    (let s : State := (s3State.enterRender 8).atStage .planeB
     s.stage = some .planeB ∧ s.call = [] ∧ s.inputs = [] ∧ s.work.line.toNat < 224 ∧ WindowLine s.ext.regf s.work.line ∧
      s.ext.regf.planeWCode ≠ 2#2 ∧ s.ext.regf.planeHCode ≠ 2#2) := by
  unfold WindowLine; decide +kernel

theorem noCall : callOk [] := by intro i r h; cases h

/-- A step of a render in progress. -/
theorem witness_EveryStepKeepsTheInvariant : Inv { State.reset with stage := some .clear } ∧
    step { State.reset with stage := some .clear } = .next ({ State.reset with stage := some .clear } : State).cleared := by
  refine ⟨⟨rfl, noCall, fun st h => ?_⟩, rfl⟩
  cases h
  exact ⟨by decide, fun h => absurd rfl h, trivial⟩

/-- Nothing after the code, and one byte less than `PLANE` takes. -/
theorem witness_BytesThatEndEarlyAreRefused : (calling [16]).inputs = [] ∧ (calling [16]).call = 16 :: [] ∧
    ((16 : Byte).toNat % 32, 1) ∈ operandCounts ∧ ([] : List Byte).length < 1 ∧
    (calling [20, 0, 0, 0, 0, 0, 0]).call = 20 :: [0, 0, 0, 0, 0, 0] ∧ ((20 : Byte).toNat % 32, 7) ∈ operandCounts ∧
    ([0, 0, 0, 0, 0, 0] : List Byte).length < 7 := by decide

theorem witness_RendersInProgressEnd : Inv (atStage (planeFields 3 1) .sprites) ∧
    (atStage (planeFields 3 1) .sprites).stage = some .sprites ∧ (atStage (planeFields 3 1) .sprites).call = [] ∧
    (atStage (planeFields 3 1) .sprites).inputs = [] := by
  refine ⟨⟨rfl, noCall, fun st h => ?_⟩, rfl, rfl, rfl⟩
  obtain rfl : Stage.sprites = st := by injection h
  refine ⟨by decide, fun _ x c hc => ?_, rfl, rfl, rfl⟩
  obtain rfl : (⟨0, 0, 0, 0⟩ : PixelCell) = c := by
    rw [show (atStage (planeFields 3 1) .sprites).work.lb = LineBuf.fill ⟨0, 0, 0, 0⟩ from rfl,
      LineBuf.cell_fill _ (LineBuf.mem_of_cell hc)] at hc
    injection hc
  decide

end Sys2Proof.Tests
end

section
/-! SUPPORT. The answer of a render as one equation: the request ends the render with a response that is a function of
the snapshot and the line alone. -/

namespace Sys2Proof.Machine

open Sys2Proof.Picture

/-- R227, R228: the row of `rowPixel`. -/
def renderedRow (e : Snapshot) (line : Nat) : Row :=
  { pixels := (List.range Config.screenW).map (rowPixel e line), full := by simp }

/-- R215, R246: what a render of a line answers over these stores. -/
def renderResponse (e : Snapshot) (line : Nat) : Response :=
  match renderFault e with
  | some c => .fault c
  | none => .row (renderedRow e line)

theorem renderedRow_pixel (e : Snapshot) (line : Nat) {k : Nat} (hk : k < 320) :
    (renderedRow e line).pixels[k]? = some (rowPixel e line k) := by
  simp [renderedRow, Config.screenW, hk]

theorem row_eq_renderedRow {lb : LineBuf} {e : Snapshot} {line : Nat}
    (h : ∀ k : Nat, k < 320 → (lb.cell k).map PixelCell.pixel = some (rowPixel e line k)) : lb.row = renderedRow e line :=
  Row.ext_pixels fun k hk => by rw [lb.row_pixel hk, h k hk, renderedRow_pixel e line hk]

/-- The row of a filled buffer, where every pixel of the picture is that cell's. -/
theorem fill_row_eq_renderedRow {c : PixelCell} {e : Snapshot} {line : Nat} (h : ∀ k, rowPixel e line k = c.pixel) :
    (LineBuf.fill c).row = renderedRow e line :=
  row_eq_renderedRow fun k hk => by rw [LineBuf.cell_fill c (by omega), h k]; rfl

/-- The end of a render forgets the stage, the transient storage and the last response. -/
theorem Keeps.finish_eq {s t : State} (h : Keeps s t) (r : Response) : t.finish r = s.finish r := by
  obtain ⟨hext, -, hcall, hret, hinputs, -, hcount⟩ := h
  simp only [State.finish, hext, hcall, hret, hinputs, hcount]

/-- R223 to R227: past ConfigCheck the layers are drawn over the backdrop and delivered. -/
theorem renderLayers_backdropped {s : State} {line : Nat} (hc : configFault s.ext.regf = none)
    (hd : s.ext.regf.dispDisable ≠ 1#1) (hp : s.ext.regf.planeEn ≠ 0#1) (hlb : s.work.lb = LineBuf.fill (backdropCell s.ext)) :
    renderLayers line s = .next (s.finish (.row (renderedRow s.ext line))) := by
  obtain ⟨t, ht, hk, hcell⟩ := renderLayers_shows hc line
  have hrow : t.work.lb.row = renderedRow s.ext line := row_eq_renderedRow fun k hk => by
    rw [hcell, hlb, LineBuf.cell_fill _ (by omega)]; simp [rowPixel, layeredCell, hd, hp]
  rw [ht, State.delivered, hk.finish_eq, hrow]

theorem renderResponse_of_row {e : Snapshot} (h : renderFault e = none) (line : Nat) :
    renderResponse e line = .row (renderedRow e line) := by rw [renderResponse, h]

theorem renderResponse_of_fault {e : Snapshot} {c : Cause} (h : renderFault e = some c) (line : Nat) :
    renderResponse e line = .fault c := by rw [renderResponse, h]

/-! The stages before ScrollFetch read the stores and write none. -/

@[simp] theorem State.cleared_ext (s : State) : s.cleared.ext = s.ext := rfl
@[simp] theorem State.dispGated_ext (s : State) : s.dispGated.ext = s.ext := rfl
@[simp] theorem State.backdropped_ext (s : State) : s.backdropped.ext = s.ext := rfl
@[simp] theorem State.planeGated_ext (s : State) : s.planeGated.ext = s.ext := rfl

/-- R215: a request the idle block serves ends the render with the response of its line and stores. -/
theorem exec_render_eq {s : State} {line : Byte} (hs : s.stage = none) (hl : line.toNat < 224) :
    exec (.render line) s = .next (s.finish (renderResponse s.ext line.toNat)) := by
  change execRender line s = _
  rw [execRender, if_neg (by simp [hs]), onLine_of_lt hl]
  unfold renderLine
  by_cases hd : s.ext.regf.dispDisable = 1#1
  · refine (if_pos hd).trans ?_
    rw [renderResponse_of_row (if_pos (.inl hd)), ← fill_row_eq_renderedRow (c := clearedCell) (by simp [rowPixel, hd])]
    rfl
  refine (if_neg hd).trans ?_
  by_cases hp : s.ext.regf.planeEn = 0#1
  · refine (if_pos hp).trans ?_
    rw [renderResponse_of_row (if_pos (.inr hp)),
      ← fill_row_eq_renderedRow (c := backdropCell s.ext) (fun k => by simp [rowPixel, hd, hp])]
    rfl
  refine (if_neg hp).trans ?_
  have hfault : renderFault s.ext = configFault s.ext.regf := if_neg (not_or.mpr ⟨hd, hp⟩)
  simp only [State.planeGated_ext, State.backdropped_ext, State.dispGated_ext, State.cleared_ext, State.enterRender_ext]
  cases hc : configFault s.ext.regf with
  | some c => rw [renderResponse_of_fault (hfault.trans hc)]; rfl
  | none => rw [renderResponse_of_row (hfault.trans hc)]; exact renderLayers_backdropped hc hd hp rfl

/-- R276, R216: a request that completes found the block idle and its line on the screen. -/
theorem exec_render_eq_next {s t : State} {line : Byte} :
    exec (.render line) s = .next t ↔
      s.stage = none ∧ line.toNat < 224 ∧ t = s.finish (renderResponse s.ext line.toNat) := by
  constructor
  · intro h
    have hr := h
    change execRender line s = _ at h
    unfold execRender at h
    split at h
    · cases h
    · next hs =>
      have hs : s.stage = none := by simpa using hs
      obtain ⟨hl, -⟩ := onLine_eq_next.mp h
      rw [exec_render_eq hs hl] at hr
      exact ⟨hs, hl, by injection hr with hr; exact hr.symm⟩
  · rintro ⟨hs, hl, rfl⟩
    exact exec_render_eq hs hl

end Sys2Proof.Machine
end

section
/-! SUPPORT. The invariant: what a called operation keeps, what a stage hands to the next, what a step can be. -/

namespace Sys2Proof.Safety

open Sys2Proof.Machine Sys2Proof.Claims

/-! ### Priorities (R51) -/

theorem prioritiesOk_fill {c : PixelCell} (h : c.prio.toNat ≤ 1) : prioritiesOk (LineBuf.fill c) := by
  intro x d hd
  rw [LineBuf.cell_fill c (LineBuf.mem_of_cell hd)] at hd
  cases hd; exact h

/-- Drawing from the first line buffer to the second leaves only priorities 0 and 1 if there were no others. -/
def KeepsPriorities (a b : LineBuf) : Prop := prioritiesOk a → prioritiesOk b

theorem drawnCell_prio_le (color : Color) (prio : BitVec 1) : (drawnCell color prio).prio.toNat ≤ 1 := by
  rw [drawnCell_prio]; omega

theorem composite_prio_le {color : Color} {prio : BitVec 1} {c : PixelCell} (h : c.prio.toNat ≤ 1) :
    (composite color prio c).prio.toNat ≤ 1 := by
  unfold composite
  split
  · exact drawnCell_prio_le color prio
  · exact h

theorem drawCell_keepsPriorities {x : Int} {color : Color} {prio : BitVec 1} {a b : LineBuf}
    (h : drawCell x color prio a = .next b) : KeepsPriorities a b := by
  intro ha y d hd
  by_cases hx : -32 ≤ x ∧ x ≤ 351
  · obtain ⟨lb, hlb, hcell⟩ := drawCell_shows hx color prio a
    obtain rfl : b = lb := by rw [h] at hlb; injection hlb
    rw [hcell, Option.map_eq_some_iff] at hd
    obtain ⟨c, hc, rfl⟩ := hd
    dsimp only
    split
    · exact composite_prio_le (ha y c hc)
    · exact ha y c hc
  · rw [drawCell_outside hx] at h; cases h

/-- R51: no drawing operation brings in a priority above 1. -/
theorem keepsPriorities_drawClosed : DrawClosed KeepsPriorities where
  refl _ h := h
  trans _ _ _ h k := k ∘ h
  draw _ _ _ _ _ h := drawCell_keepsPriorities h

/-! ### Called operations -/

/-- What a called operation keeps of the parts the invariant speaks of. -/
structure CallKeeps (s t : State) : Prop where
  ext : t.ext = s.ext
  stage : t.stage = s.stage
  call : t.call = s.call
  line : t.work.line = s.work.line
  prio : KeepsPriorities s.work.lb t.work.lb

theorem CallKeeps.onLb {s t : State} {o : Host.Outcome LineBuf Fault Refusal} (h : onLb s o = .next t)
    (hdraw : ∀ lb, o = .next lb → KeepsPriorities s.work.lb lb) : CallKeeps s t := by
  obtain ⟨lb, hlb, rfl⟩ := onLb_eq_next.mp h
  exact ⟨rfl, rfl, rfl, rfl, hdraw lb hlb⟩

/-- The same for an operation with a line operand. -/
theorem CallKeeps.onLine_onLb {s t : State} {line : Byte} {o : Host.Outcome LineBuf Fault Refusal}
    (h : onLine line (Machine.onLb s o) = .next t) (hdraw : ∀ lb, o = .next lb → KeepsPriorities s.work.lb lb) :
    CallKeeps s t := CallKeeps.onLb (onLine_eq_next.mp h).2 hdraw

theorem exec_call_keeps {i : Instr} {s t : State} (hi : i.kind = .call) (h : exec i s = .next t) : CallKeeps s t := by
  have draws := keepsPriorities_drawClosed
  cases i with
  | expand v3 | sprtrav | sprdecode i => cases h; exact ⟨rfl, rfl, rfl, rfl, id⟩
  | hsfetch line | sprplan line =>
    obtain ⟨-, h⟩ := onLine_eq_next.mp h
    cases h; exact ⟨rfl, rfl, rfl, rfl, id⟩
  | draw x color prio => exact .onLb h fun _ => drawCell_keepsPriorities
  | patdec x ref subrow => exact .onLb h fun _ => draws.patdecF
  | rowrun x addr ncols subrow => exact .onLb h fun _ => draws.rowRun
  | plane line base hscroll vscroll => exact .onLine_onLb h fun _ => draws.planeRun
  | window line => exact .onLine_onLb h fun _ => draws.windowRun
  | sprdraw line => exact .onLine_onLb h fun _ => draws.spriteDraw
  | _ => cases hi

theorem stageOk_of_callKeeps {s t : State} {st : Stage} (h : CallKeeps s t) (hok : stageOk s st) : stageOk t st := by
  unfold stageOk at hok ⊢
  rw [h.ext, h.line]
  exact ⟨hok.1, fun hst => h.prio (hok.2.1 hst), hok.2.2⟩

/-! ### Stages -/

/-- What a stage hands on: the stores and `call` as they were, and what the stage it moves to needs. -/
structure HandsOn (s t : State) : Prop where
  ext : t.ext = s.ext
  call : t.call = s.call
  stage : ∀ st, t.stage = some st → stageOk t st

theorem HandsOn.ended {s t : State} (hext : t.ext = s.ext) (hcall : t.call = s.call) (hst : t.stage = none) : HandsOn s t :=
  ⟨hext, hcall, fun st h => by rw [hst] at h; cases h⟩

theorem HandsOn.moved {s t : State} {st : Stage} (hext : t.ext = s.ext) (hcall : t.call = s.call) (hst : t.stage = some st)
    (hok : stageOk t st) : HandsOn s t :=
  ⟨hext, hcall, fun st' h => by rw [hst] at h; cases h; exact hok⟩

/-- A stage that draws and moves to `next`, from a state that has what `next` needs. -/
theorem HandsOn.drawn {s t : State} {next : Stage} {o : Host.Outcome LineBuf Fault Refusal}
    (h : onLb (s.atStage next) o = .next t) (hdraw : ∀ lb, o = .next lb → KeepsPriorities s.work.lb lb)
    (hok : stageOk s next) : HandsOn s t := by
  have hk := CallKeeps.onLb h hdraw
  have hok' : stageOk (s.atStage next) next := hok
  exact .moved hk.ext hk.call hk.stage (stageOk_of_callKeeps hk hok')

/-- R217 to R227: the operation of a stage hands on what the next stage needs. -/
theorem stageOp_handsOn {s t : State} {st : Stage} (hok : stageOk s st) (h : exec (stageOp s.work.line st) s = .next t) :
    HandsOn s t := by
  have draws := keepsPriorities_drawClosed
  obtain ⟨hline, hprio, hconf⟩ := hok
  cases st with
  | clear =>
    cases h
    exact .moved rfl rfl rfl ⟨hline, fun _ => prioritiesOk_fill (by decide), trivial⟩
  | dispGate =>
    cases h
    have hprio := hprio (by simp)
    by_cases hd : s.ext.regf.dispDisable = 1#1
    · exact .moved (st := .done) rfl rfl (congrArg some (if_pos hd)) ⟨hline, fun _ => hprio, trivial⟩
    · exact .moved (st := .backdrop) rfl rfl (congrArg some (if_neg hd))
        ⟨hline, fun _ => hprio, (BitVec.eq_zero_or_eq_one _).resolve_right hd⟩
  | backdrop =>
    cases h
    exact .moved rfl rfl rfl ⟨hline, fun _ => prioritiesOk_fill (drawnCell_prio_le _ _), hconf⟩
  | planeGate =>
    cases h
    have hprio := hprio (by simp)
    by_cases hp : s.ext.regf.planeEn = 0#1
    · exact .moved (st := .done) rfl rfl (congrArg some (if_pos hp)) ⟨hline, fun _ => hprio, trivial⟩
    · exact .moved (st := .configCheck) rfl rfl (congrArg some (if_neg hp))
        ⟨hline, fun _ => hprio, hconf, (BitVec.eq_zero_or_eq_one _).resolve_left hp⟩
  | configCheck =>
    have ht : s.configChecked = t := by injection h
    unfold State.configChecked at ht
    cases hc : configFault s.ext.regf with
    | some c => rw [hc] at ht; subst ht; exact .ended rfl rfl rfl
    | none =>
      rw [hc] at ht; subst ht
      exact .moved rfl rfl rfl ⟨hline, fun _ => hprio (by simp), hconf.1, hconf.2, hc⟩
  | scrollFetch =>
    obtain ⟨-, h⟩ := onLine_eq_next.mp h
    cases h
    exact .moved rfl rfl rfl ⟨hline, fun _ => hprio (by simp), hconf⟩
  | planeB =>
    obtain ⟨-, h⟩ := onLine_eq_next.mp h
    exact .drawn h (fun _ => draws.planeRun) ⟨hline, fun _ => hprio (by simp), hconf⟩
  | winOrPlaneA =>
    obtain ⟨-, h⟩ := onLine_eq_next.mp h
    refine .drawn h (fun lb hlb => ?_) ⟨hline, fun _ => hprio (by simp), hconf⟩
    split at hlb
    · exact draws.windowRun hlb
    · exact draws.planeRun hlb
  | sprites =>
    obtain ⟨-, h⟩ := onLine_eq_next.mp h
    have hk := HandsOn.drawn (s := (s.setChain (spriteChain s.ext)).planned s.work.line.toNat) h
      (fun _ => draws.spriteDraw) ⟨hline, fun _ => hprio (by simp), trivial⟩
    exact ⟨hk.ext, hk.call, hk.stage⟩
  | done => cases h; exact .ended rfl rfl rfl

/-! ### The step -/

/-- R217, R107: the bytes of a stage are its operation. -/
theorem runBytes_stage (st : Stage) (line : Byte) (s : State) :
    runBytes [st.code.setWidth 8, line] s = exec (stageOp line st) s := by cases st <;> rfl

/-- All a step can be, when it completes. -/
inductive StepCase (s t : State) : Prop
  | idle (h : t = s)
  | written (w : ExtWrite) (rest : List Input) (hstage : s.stage = none) (hcall : s.call = [])
      (h : t = { s with ext := s.ext.write w, inputs := rest })
  | request (line : Byte) (rest : List Input) (hstage : s.stage = none) (hcall : s.call = [])
      (h : exec (.render line) { s with inputs := rest } = .next t)
  | stage (st : Stage) (hstage : s.stage = some st) (hcall : s.call = []) (h : exec (stageOp s.work.line st) s = .next t)
  | call (i : Instr) (rest : List Byte) (hdecode : decode s.call = .ok (i, rest))
      (h : exec i { s with call := [] } = .next t)

theorem busy_eq_false {s : State} : s.busy = false ↔ s.stage = none ∧ s.call = [] := by
  simp [State.busy]

/-! What the fetch finds, by whether the block is busy and what the outside does next. -/

theorem fetch_operation {s : State} (hb : s.busy = true) (hi : s.inputs = []) :
    fetch s = .operation s.nextOperation { s with call := [] } := by simp only [fetch, hb, hi]

theorem fetch_broken {s : State} {i : Input} {rest : List Input} (hb : s.busy = true) (hi : s.inputs = i :: rest) :
    ∃ r, fetch s = .broken r := by cases i <;> simp [fetch, hb, hi]

theorem fetch_idle {s : State} (hb : s.busy = false) (hi : s.inputs = []) : fetch s = .idle := by
  simp only [fetch, hb, hi]

theorem fetch_request {s : State} {line : Byte} {rest : List Input} (hb : s.busy = false)
    (hi : s.inputs = .request line :: rest) : fetch s = .operation (requestBytes line) { s with inputs := rest } := by
  simp only [fetch, hb, hi]

theorem fetch_write {s : State} {w : ExtWrite} {rest : List Input} (hb : s.busy = false)
    (hi : s.inputs = .write w :: rest) : fetch s = .written { s with ext := s.ext.write w, inputs := rest } := by
  simp only [fetch, hb, hi]

/-- A busy block that completes a step ran its stage or the called operation. -/
theorem stepCase_of_busy {s t : State} (hb : s.busy = true) (h : runBytes s.nextOperation { s with call := [] } = .next t) :
    StepCase s t := by
  cases hcall : s.call with
  | nil =>
    obtain ⟨st, hst⟩ : ∃ st, s.stage = some st := by
      rw [State.busy, hcall] at hb; simpa [Option.isSome_iff_exists] using hb
    have hn : s.nextOperation = [st.code.setWidth 8, s.work.line] := by simp only [State.nextOperation, hcall, hst]
    have hs : { s with call := [] } = s := by rw [← hcall]
    rw [hn, hs, runBytes_stage] at h
    exact .stage st hst hcall h
  | cons b bs =>
    have hn : s.nextOperation = s.call := by simp only [State.nextOperation, hcall]
    rw [hn, runBytes] at h
    cases hd : decode s.call with
    | error e => rw [hd] at h; cases h
    | ok r => rw [hd] at h; exact .call r.1 r.2 hd h

theorem step_cases {s t : State} (h : step s = .next t) : StepCase s t := by
  unfold step at h
  cases hb : s.busy with
  | false =>
    obtain ⟨hstage, hcall⟩ := busy_eq_false.mp hb
    rcases hi : s.inputs with _ | ⟨line | w, rest⟩
    · rw [fetch_idle hb hi] at h; cases h; exact .idle rfl
    · rw [fetch_request hb hi] at h; exact .request line rest hstage hcall h
    · rw [fetch_write hb hi] at h; cases h; exact .written w rest hstage hcall rfl
  | true =>
    cases hi : s.inputs with
    | nil => rw [fetch_operation hb hi] at h; exact stepCase_of_busy hb h
    | cons i rest =>
      obtain ⟨r, hr⟩ := fetch_broken hb hi
      rw [hr] at h; cases h

theorem write_wf {e : Snapshot} (h : e.vram.wf = true) (w : ExtWrite) : (e.write w).vram.wf = true := by
  cases w with
  | vram addr v => exact Memory.write_wf h addr.isLt v
  | vscroll p v => cases p <;> exact h
  | pal i c | field f | reg n v => exact h

theorem callOk_nil : callOk [] := fun _ _ h => by cases h

theorem inv_of_idle {s : State} (hwf : s.ext.vram.wf = true) (hcall : s.call = []) (hstage : s.stage = none) : Inv s :=
  ⟨hwf, hcall ▸ callOk_nil, fun st h => by rw [hstage] at h; cases h⟩

/-- Settles O56, by the cases of a step: a stage hands on what the next one needs, a called operation keeps the stage's
condition, and whatever else completes leaves the block idle. -/
theorem everyStepKeepsTheInvariant : Obligations.EveryStepKeepsTheInvariant := by
  intro s t ⟨hwf, hcallOk, hstageOk⟩ hstep
  cases step_cases hstep with
  | idle h => exact h ▸ ⟨hwf, hcallOk, hstageOk⟩
  | written w rest hstage hcall h => subst h; exact inv_of_idle (write_wf hwf w) hcall hstage
  | request line rest hstage hcall h =>
    obtain ⟨-, -, rfl⟩ := exec_render_eq_next.mp h
    exact inv_of_idle hwf hcall rfl
  | stage st hstage hcall h =>
    have hk := stageOp_handsOn (hstageOk st hstage) h
    exact ⟨hk.ext ▸ hwf, hk.call ▸ hcallOk, hk.stage⟩
  | call i rest hdecode h =>
    have hk := exec_call_keeps (hcallOk i rest hdecode) h
    exact ⟨hk.ext ▸ hwf, hk.call ▸ callOk_nil, fun st hst => stageOk_of_callKeeps hk (hstageOk st (hk.stage ▸ hst))⟩

end Sys2Proof.Safety
end

section
/-! SUPPORT. The register bytes, the bounds of the draw plan, and the draws that leave the line buffer or never do. -/

namespace Sys2Proof.Machine

/-! ### Register bytes (R49) -/

/-- A field of a word, as the low bits of a quotient. -/
theorem extractLsb'_eq_ofNat {w : Nat} (v : BitVec w) (start width : Nat) :
    v.extractLsb' start width = BitVec.ofNat width (v.toNat / 2 ^ start) := field_eq_ofNat v start width

/-- A base address: a field of a register byte, moved up by `shift` bits. -/
theorem shifted_field_eq_ofNat {w : Nat} (v : BitVec w) (start width shift : Nat) :
    (v.extractLsb' start width).setWidth 16 <<< shift =
      BitVec.ofNat 16 (v.toNat / 2 ^ start % 2 ^ width * 2 ^ shift) := by
  apply BitVec.eq_of_toNat_eq
  simp [extractLsb'_eq_ofNat, Nat.shiftLeft_eq]

/-- R49: a register the table does not name binds no field. -/
theorem writeReg_unnamed (f : RegFields) (v : Byte) {n : BitVec 5}
    (hn : n.toNat ∉ [0, 1, 2, 3, 4, 5, 7, 11, 12, 13, 16, 17, 18]) : f.writeReg n v = f := by
  unfold RegFields.writeReg
  split <;> simp_all

/-- Settles O11: each field is the low bits of a quotient of the byte, a base address those bits moved up. -/
theorem registerBytesBindTheirFields : Obligations.RegisterBytesBindTheirFields := by
  intro f v
  refine ⟨?_, ?_, ?_, ?_, ?_, ?_, ?_, ?_, ?_, ?_, ?_, ?_, ?_, fun n => writeReg_unnamed f v⟩ <;>
    simp [RegFields.writeReg, ↓shifted_field_eq_ofNat, extractLsb'_eq_ofNat]

/-! ### The bounds of the draw plan (R54, R55) -/

theorem add_plan_mem {p : PlanState} {i : BitVec 7} {d : SprEntry} {q : PlanEntry} (h : q ∈ (p.add i d).plan) :
    q ∈ p.plan ∨ q.index = i := by
  rcases List.mem_append.mp h with h | h
  · exact .inl h
  · exact .inr (congrArg PlanEntry.index (List.mem_singleton.mp h))

/-- R198: the forward pass plans only sprites of the chain it walks. -/
theorem planFrom_index_mem (e : Snapshot) (line : Nat) (chain : List (BitVec 7)) (p : PlanState) :
    ∀ q ∈ (planFrom e line chain p).plan, q ∈ p.plan ∨ q.index ∈ chain := by
  induction chain generalizing p with
  | nil => exact fun q hq => .inl hq
  | cons i rest ih =>
    have hadd : ∀ q ∈ (p.add i (sprFields e i)).plan, q ∈ p.plan ∨ q.index ∈ i :: rest := fun q hq =>
      (add_plan_mem hq).imp_right fun h => List.mem_cons.mpr (.inl h)
    intro q hq
    unfold planFrom at hq
    dsimp only at hq
    split at hq
    · split at hq
      · exact hadd q hq
      · exact (ih _ q hq).elim (hadd q) fun h => .inr (List.mem_cons_of_mem i h)
    · exact (ih p q hq).imp_right (List.mem_cons_of_mem i)

theorem spritePlan_index_mem (e : Snapshot) (line : Nat) (chain : List (BitVec 7)) :
    ∀ q ∈ (spritePlan e line chain).plan, q.index ∈ chain := fun q hq =>
  (planFrom_index_mem e line chain _ q hq).resolve_left List.not_mem_nil

/-- Settles O32, by what holds of the forward pass at every moment (`PlanState.Ok`). -/
theorem sprplanKeepsTheBudgets : Obligations.SprplanKeepsTheBudgets := by
  intro line s t h
  obtain ⟨-, h⟩ := onLine_eq_next.mp h
  obtain rfl : s.planned line.toNat = t := by injection h
  have hok := spritePlan_ok s.ext line.toNat s.work.chain
  refine ⟨hok.nspr_le, hok.npix_le, Nat.mod_eq_zero_of_dvd hok.npix_dvd, hok.length.trans_le hok.nspr_le, fun q hq => ?_⟩
  obtain ⟨-, hcells, -⟩ := hok.entries q hq
  exact ⟨hcells.trans (sprFields_sw s.ext q.index).2, spritePlan_index_mem _ _ _ q hq⟩

/-! ### Draws and the edges of the line buffer (R50, R52) -/

/-- Settles O21: there is no cell outside -32 to 351. -/
theorem drawOutsideTheBufferFaults : Obligations.DrawOutsideTheBufferFaults := by
  intro x color prio s hx
  change onLb s (drawCell x color prio s.work.lb) = _
  rw [drawCell_outside (by omega)]; rfl

theorem Shows.ne_fault {o : Host.Outcome LineBuf Fault Refusal} {lb : LineBuf} {f : Int → PixelCell → PixelCell}
    (h : Shows o lb f) (r : Fault) : o ≠ .fault r := by
  obtain ⟨lb', rfl, -⟩ := h; simp

theorem StageShows.ne_fault {o : Host.Outcome State Fault Refusal} {s : State} {st : Stage}
    {f : Int → PixelCell → PixelCell} (h : StageShows o s st f) (r : Fault) : o ≠ .fault r := by
  obtain ⟨t, rfl, -⟩ := h; simp

theorem onLb_ne_fault {s : State} {o : Host.Outcome LineBuf Fault Refusal} {r : Fault} (h : o ≠ .fault r) :
    onLb s o ≠ .fault r := by
  cases o <;> simp_all [onLb]

theorem onLine_ne_fault {line : Byte} {o : Host.Outcome State Fault Refusal} {r : Fault} (h : o ≠ .fault r) :
    onLine line o ≠ .fault r := by
  unfold onLine; split
  · exact h
  · simp

/-- R155, R161: a plane draws inside the buffer at every scroll; with a size code of 2 it is refused. -/
theorem planeRun_ne_fault (e : Snapshot) (line base hscroll vscroll : Nat) (lb : LineBuf) (r : Fault) :
    planeRun e line base hscroll vscroll lb ≠ .fault r := by
  by_cases hw : e.regf.planeWCode = 2#2
  · rw [planeRun_reserved e (.inl hw)]; simp
  by_cases hh : e.regf.planeHCode = 2#2
  · rw [planeRun_reserved e (.inr hh)]; simp
  obtain ⟨wt, hwt⟩ := planeTiles_isSome hw
  obtain ⟨ht, hht⟩ := planeTiles_isSome hh
  exact (planeRun_shows e hwt hht line base hscroll vscroll lb).ne_fault r

/-- A render completes or is refused. -/
theorem exec_render_ne_fault (line : Byte) (s : State) (r : Fault) : exec (.render line) s ≠ .fault r := by
  by_cases hs : s.stage = none
  · by_cases hl : line.toNat < 224
    · rw [exec_render_eq hs hl]; simp
    · change execRender line s ≠ _
      rw [execRender, if_neg (by simp [hs]), onLine_of_le (by omega)]; simp
  · change execRender line s ≠ _
    rw [execRender, if_pos (Option.isSome_iff_ne_none.mpr hs)]; simp

/-- Settles O55: planes, window and planned sprites lie in the buffer. -/
theorem noRenderDrawsOutsideTheBuffer : Obligations.NoRenderDrawsOutsideTheBuffer := by
  intro line s r
  refine ⟨exec_render_ne_fault line s r, ?_, ?_, ?_, ?_, fun base hscroll vscroll => ?_⟩
  · exact onLine_ne_fault (onLb_ne_fault (planeRun_ne_fault _ _ _ _ _ _ r))
  · refine onLine_ne_fault (onLb_ne_fault ?_)
    split
    · exact (windowRun_shows ..).ne_fault r
    · exact planeRun_ne_fault _ _ _ _ _ _ r
  · exact onLine_ne_fault ((spritesStage_shows s line.toNat).ne_fault r)
  · exact onLine_ne_fault (onLb_ne_fault ((windowRun_shows ..).ne_fault r))
  · exact onLine_ne_fault (onLb_ne_fault (planeRun_ne_fault _ _ _ _ _ _ r))

end Sys2Proof.Machine
end

section
/-! SUPPORT. Parts of the stores that no response depends on. -/

namespace Sys2Proof.Machine

open Sys2Proof.Picture

/-- Two snapshots with the same fault and the same visible pixels get the same answer. -/
theorem renderResponse_congr {e e' : Snapshot} {line : Nat} (hf : renderFault e = renderFault e')
    (hp : ∀ k < 320, rowPixel e line k = rowPixel e' line k) : renderResponse e line = renderResponse e' line := by
  have hrow : renderedRow e line = renderedRow e' line := Row.ext_pixels fun k hk => by
    rw [renderedRow_pixel e line hk, renderedRow_pixel e' line hk, hp k hk]
  rw [renderResponse, renderResponse, hf, hrow]

/-- The requests that two idle blocks serve, where their stores give the same answer. -/
theorem exec_render_same_response {s s' : State} {line : Byte} (hs : s.stage = none) (hs' : s'.stage = none)
    (hl : line.toNat < 224) (h : renderResponse s.ext line.toNat = renderResponse s'.ext line.toNat) :
    ∃ t t', exec (.render line) s = .next t ∧ exec (.render line) s' = .next t' ∧ t.response = t'.response :=
  ⟨_, _, exec_render_eq hs hl, exec_render_eq hs' hl, congrArg some h⟩

/-- Settles O52: the two fields are not among those that decide the fault and the pixels. -/
theorem horizontalWindowFieldsChangeNothing : Obligations.HorizontalWindowFieldsChangeNothing := by
  intro line s h r hs hl
  refine exec_render_same_response hs hs hl (renderResponse_congr rfl fun k _ => ?_)
  exact rowPixel_congr rfl rfl rfl rfl rfl rfl rfl rfl rfl rfl rfl rfl rfl rfl rfl fun _ => ⟨rfl, rfl⟩

/-! ### Colour 0 of a palette row (R34) -/

theorem palRead_write_pal (e : Snapshot) (i : BitVec 6) (c : Color) {j : BitVec 6} (hj : j ≠ i) :
    palRead (e.write (.pal i c)) j = palRead e j := by
  have hne : i.toNat ≠ j.toNat := fun h => hj (BitVec.eq_of_toNat_eq h.symm)
  simp [palRead, Snapshot.write, Palette.write, List.getD, hne]

/-- R104, R144: a pixel that draws never uses the first entry of a palette row. -/
theorem paletteIndex_ne_of_row_start {i : BitVec 6} (hi : i.toNat % 16 = 0) (palrow : BitVec 2) {p : BitVec 4}
    (hp : p ≠ 0#4) : BitVec.ofNat 6 (16 * palrow.toNat + p.toNat) ≠ i := by
  have hp0 : p.toNat ≠ 0 := fun h => hp (BitVec.eq_of_toNat_eq h)
  intro h
  rw [← h, BitVec.toNat_ofNat] at hi
  omega

theorem tileOver_write_pal (e : Snapshot) {i : BitVec 6} (hi : i.toNat % 16 = 0) (col : Color) (n : NtEntry)
    (subrow : BitVec 3) (k : Nat) (c : PixelCell) :
    tileOver (e.write (.pal i col)) n subrow k c = tileOver e n subrow k c := by
  have hpix : tilePixel (e.write (.pal i col)) n subrow k = tilePixel e n subrow k := rfl
  unfold tileOver paint
  rw [hpix]
  split
  · rfl
  · next hp => rw [palRead_write_pal e i col (paletteIndex_ne_of_row_start hi _ hp)]

/-- Every layer reaches the palette through the tiles it draws. -/
theorem layersAt_congr_of_tileOver {e e' : Snapshot} (hv : e'.vram = e.vram) (hr : e'.regf = e.regf) (ha : e'.vsA = e.vsA)
    (hb : e'.vsB = e.vsB) (htile : ∀ n subrow k c, tileOver e' n subrow k c = tileOver e n subrow k c) (line : Nat) (y : Int)
    (c : PixelCell) : layersAt e' line y c = layersAt e line y c := by
  have hrun : ∀ subrow ncols x addr y c, runAt e' subrow ncols x addr y c = runAt e subrow ncols x addr y c := by
    intros; simp only [runAt, runEntry, htile, memRead2_congr hv]
  have hplane : ∀ base h v y c, planeOf e' line base h v y c = planeOf e line base h v y c := by
    intros; simp only [planeOf, planeAt, pass1At, pass2At, hrun, hr]
  have hwindow : ∀ y c, windowAt e' line y c = windowAt e line y c := by
    intros; simp only [windowAt, windowRowAddr, hrun, hr]
  have hsprites : ∀ plan y c, spritesAt e' line plan y c = spritesAt e line plan y c := by
    intros; simp only [spritesAt, spriteAt, htile, sprFields_congr hv (congrArg _ hr)]
  obtain ⟨hA, hB⟩ := hsFetch_congr hv (congrArg _ hr) (congrArg _ hr) line
  simp only [layersAt, hplane, hwindow, hsprites, spriteChain_congr hv (congrArg _ hr),
    spritePlan_congr hv (congrArg _ hr), hA, hB, hr, ha, hb]

theorem rowPixel_write_pal (e : Snapshot) {i : BitVec 6} (hi : i.toNat % 16 = 0) (hb : i ≠ e.regf.backdrop) (col : Color)
    (line k : Nat) : rowPixel e line k = rowPixel (e.write (.pal i col)) line k := by
  have hback : backdropCell (e.write (.pal i col)) = backdropCell e :=
    congrArg (drawnCell · 0#1) (palRead_write_pal e i col hb.symm)
  have hlayers := layersAt_congr_of_tileOver (e := e) (e' := e.write (.pal i col)) rfl rfl rfl rfl
    (tileOver_write_pal e hi col) line k (backdropCell e)
  unfold rowPixel layeredCell
  rw [hback, hlayers]; rfl

/-- Settles O53: pixels of index 0 draw nothing, and only the backdrop's cell reads an entry of its own. -/
theorem colourZeroShowsOnlyAsBackdrop : Obligations.ColourZeroShowsOnlyAsBackdrop := by
  intro line s i c hs hl hi hb
  exact exec_render_same_response hs hs hl (renderResponse_congr rfl fun k _ => rowPixel_write_pal s.ext hi hb c _ k)

end Sys2Proof.Machine
end

section
/-! SUPPORT. The collaborator's stores: how they are read, that no operation writes them, and what a write between two
renders leaves to be read. -/

namespace Sys2Proof.Machine

open Sys2Proof.Safety Sys2Proof.Claims

/-! ### Reads (R61 to R63) -/

/-- R61: an address counts modulo 65536, also with an offset added. -/
theorem memRead1_mod_add (e : Snapshot) (a k : Nat) : memRead1 e (a % 65536 + k) = memRead1 e (a + k) :=
  congrArg e.vram.read (Nat.mod_add_mod a 65536 k)

/-- Settles O10: the two bytes stand one after the other in the word, and each is read at its own address modulo 65536. -/
theorem wordReadsAreBigEndian : Obligations.WordReadsAreBigEndian := by
  intro e a
  have hbyte : memRead1 e a = memRead1 e (a % 65536) := (memRead1_mod_add e a 0).symm
  refine ⟨append_toNat (memRead1 e a) (memRead1 e (a + 1)), hbyte, ?_⟩
  change memRead1 e a ++ memRead1 e (a + 1) = memRead1 e (a % 65536) ++ memRead1 e (a % 65536 + 1)
  rw [← hbyte, memRead1_mod_add]

/-! ### Operations (R64) -/

theorem State.configChecked_ext (s : State) : s.configChecked.ext = s.ext := by
  unfold State.configChecked
  split
  · exact s.raise_ext _
  · exact s.atStage_ext _

theorem onLb_next_ext {s t : State} {o : Host.Outcome LineBuf Fault Refusal} (h : onLb s o = .next t) : t.ext = s.ext := by
  obtain ⟨lb, -, rfl⟩ := onLb_eq_next.mp h
  exact s.setLb_ext lb

/-- R64: a stage, a called operation or a request that completes leaves the collaborator's stores as they are. -/
theorem exec_next_ext {i : Instr} {s t : State} (h : exec i s = .next t) : t.ext = s.ext := by
  cases i with
  | clear | dispgate | backdrop | planegate | done => cases h; rfl
  | configcheck => cases h; exact s.configChecked_ext
  | scrollfetch line =>
    obtain ⟨-, h⟩ := onLine_eq_next.mp h
    cases h; rfl
  | planeb line | winsel line | sprites line =>
    obtain ⟨-, h⟩ := onLine_eq_next.mp h
    -- the stage draws on `s` with `STAGE` moved (SPRITES: chain and plan filled too), whose stores are those of `s`
    have hdrawn := onLb_next_ext h
    exact hdrawn
  | render line =>
    obtain ⟨-, -, rfl⟩ := exec_render_eq_next.mp h
    exact s.finish_ext _
  | _ => exact (exec_call_keeps rfl h).ext

/-- Settles O12: equal stores read alike. -/
theorem theBlockWritesNoExternalState : Obligations.TheBlockWritesNoExternalState := by
  intro i s t h
  have hext := exec_next_ext h
  exact ⟨hext, fun a => congrArg (memRead1 · a) hext⟩

/-! ### Writes between two renders (R73, R74) -/

theorem step_idle {s : State} (hb : s.busy = false) (hi : s.inputs = []) : step s = .next s := by
  rw [step, fetch_idle hb hi]

theorem step_write {s : State} {w : ExtWrite} {rest : List Input} (hb : s.busy = false)
    (hi : s.inputs = .write w :: rest) : step s = .next { s with ext := s.ext.write w, inputs := rest } := by
  rw [step, fetch_write hb hi]

theorem memRead1_write_vram {e : Snapshot} (hwf : e.vram.wf = true) (addr : Word) (v : Byte) (a : Nat) :
    memRead1 (e.write (.vram addr v)) a = if a % 65536 = addr.toNat then v else memRead1 e a :=
  Memory.read_write hwf addr.toNat v (a % 65536)

/-- Settles O6, by a read after a write of video memory in canonical form. -/
theorem writesBetweenRendersAreSeen : Obligations.WritesBetweenRendersAreSeen := by
  intro s hb hwf
  refine ⟨step_idle hb, fun addr v rest hi => ?_⟩
  exact ⟨_, step_write hb hi, rfl, rfl, rfl, rfl, rfl, rfl, rfl, memRead1_write_vram hwf addr v⟩

theorem palRead_write_pal_same (e : Snapshot) (i : BitVec 6) (c : Color) : palRead (e.write (.pal i c)) i = c := by
  have hi : i.toNat < e.pal.colors.length := by rw [e.pal.full]; exact i.isLt
  simp [palRead, Snapshot.write, Palette.write, List.getD, hi]

/-- R71: a scroll word counts by its low 10 bits. -/
theorem vsRead_write_vscroll_same (e : Snapshot) (p : ScrollPlane) (v : Word) :
    (vsRead (e.write (.vscroll p v)) p).toNat = v.toNat % 1024 := by
  have hlow : (v.extractLsb' 0 10).toNat = v.toNat % 1024 := by simp [extractLsb'_eq_ofNat]
  cases p <;> exact hlow

theorem vsRead_write_vscroll_other (e : Snapshot) {p q : ScrollPlane} (hq : q ≠ p) (v : Word) :
    vsRead (e.write (.vscroll p v)) q = vsRead e q := by
  cases p with
  | a =>
    cases q with
    | a => exact absurd rfl hq
    | b => rfl
  | b =>
    cases q with
    | a => rfl
    | b => exact absurd rfl hq

/-- A scroll write leaves video memory, the palette and the register fields. -/
theorem write_vscroll_frame (e : Snapshot) (p : ScrollPlane) (v : Word) :
    (e.write (.vscroll p v)).vram = e.vram ∧ (e.write (.vscroll p v)).pal = e.pal ∧
      (e.write (.vscroll p v)).regf = e.regf := by
  cases p <;> exact ⟨rfl, rfl, rfl⟩

/-- R36: a pending field write turns the fields as `RegFields.write` says. -/
theorem fieldBecomes_write {s : State} (hb : s.busy = false) (rest : List Input) (w : FieldWrite) :
    FieldBecomes s rest w (s.ext.regf.write w) := step_write hb

/-- Settles O7, each kind of write by what its store reads after it. -/
theorem storeWritesBetweenRendersAreSeen : Obligations.StoreWritesBetweenRendersAreSeen := by
  intro s rest hb
  have hfield := fieldBecomes_write hb rest
  refine ⟨fun i c hi => ?_, fun p v hi => ?_, ?_, fun n v hi => ⟨_, step_write hb hi, rfl, rfl⟩⟩
  · refine ⟨_, step_write hb hi, rfl, fun j => ?_, rfl, rfl, rfl, rfl⟩
    split
    · next hj => exact hj ▸ palRead_write_pal_same s.ext i c
    · next hj => exact palRead_write_pal s.ext i c hj
  · exact ⟨_, step_write hb hi, rfl, vsRead_write_vscroll_same s.ext p v,
      fun q hq => vsRead_write_vscroll_other s.ext hq v, write_vscroll_frame s.ext p v⟩
  · exact ⟨(hfield <| .dispDisable ·), (hfield <| .planeEn ·), (hfield <| .baseA ·), (hfield <| .baseB ·),
      (hfield <| .baseW ·), (hfield <| .satBase ·), (hfield <| .hsBase ·), (hfield <| .winVpos ·),
      (hfield <| .winDown ·), (hfield <| .winHpos ·), (hfield <| .winRight ·), (hfield <| .hsMode ·),
      (hfield <| .vsColumn ·), (hfield <| .planeWCode ·), (hfield <| .planeHCode ·), (hfield <| .backdrop ·),
      (hfield <| .interlace ·)⟩

end Sys2Proof.Machine
end

section
/-! SUPPORT. The decoder and the encoder: the operands of every operation read back from its bytes, what the decoder can
answer, and what a step does with it. -/

namespace Sys2Proof

open Sys2Proof.Claims

/-! ### Operand fields read back (log 2) -/

/-- A tile operand in the 16-bit form: bit 3 of the last byte is clear. -/
theorem decodeRef_entry (w : Word) (subrow : BitVec 3) : decodeRef w (subrow.setWidth 8) = .entry w := by
  have hbit : ∀ v : BitVec 3, field (v.setWidth 8 : Byte) 3 1 ≠ 1#1 := by decide
  exact if_neg (hbit subrow)

/-- A tile operand in the field form: bit 3 of the last byte is set. -/
theorem decodeRef_fields (n : NtEntry) (subrow : BitVec 3) :
    decodeRef n.toWord (subrow.setWidth 8 ||| 8#8) = .fields n := by
  have hbit : ∀ v : BitVec 3, field (v.setWidth 8 ||| 8#8 : Byte) 3 1 = 1#1 := by decide
  exact (if_pos (hbit subrow)).trans (congrArg PatRef.fields n.ofWord_toWord)

/-- The bit of the field form does not touch the sub-row. -/
theorem field_subrow_or (subrow : BitVec 3) : field (subrow.setWidth 8 ||| 8#8 : Byte) 0 3 = subrow := by
  revert subrow; decide

theorem field_columnCount {ncols : Nat} (h : ncols ≤ 41) : (field (BitVec.ofNat 8 ncols) 0 6).toNat = ncols := by
  rw [field_toNat, BitVec.toNat_ofNat]; omega

theorem spanOk_iff {x : Int} {n : Nat} : spanOk x n = true ↔ -32 ≤ x ∧ x + n ≤ 352 := by simp [spanOk]

/-- A span that lies in the line buffer starts at a position the 9 bits hold. -/
theorem decodeX_of_spanOk {x : Int} {n : Nat} (h : spanOk x n = true) :
    decodeX (hiByte (encodeX x)) (loByte (encodeX x)) = x := by
  obtain ⟨hlo, hhi⟩ := spanOk_iff.mp h
  exact decodeX_bytes hlo (by omega)

/-! ### Decoding an encoded operation -/

/-- R107: the code stands in bits 4:0 of the first byte. -/
theorem decode_cons (b : Byte) (bs : List Byte) : decode (b :: bs) = decodeOperands (field b 0 5) bs := rfl

/-- R107: the code is read back. -/
theorem decode_encode_append (i : Instr) (rest : List Byte) :
    decode (encode i ++ rest) = decodeOperands i.code (i.operandBytes ++ rest) := by
  rw [encode, List.cons_append, decode_cons, field_setWidth (by omega)]

/-- R115: the operands are read back from their bytes, and nothing after them is read. -/
theorem decodeOperands_operandBytes {i : Instr} (rest : List Byte) (h : i.wellFormed = true) :
    decodeOperands i.code (i.operandBytes ++ rest) = .ok (i, rest) := by
  cases i with
  | expand v3 | sprdecode i => simp [decodeOperands, Instr.code, Instr.operandBytes, field_setWidth]
  | draw x color prio =>
    simp [decodeOperands, Instr.code, Instr.operandBytes, bytes16, decodeX_of_spanOk h, word16_bytes, field_setWidth,
      Color.unpack_pack]
  | patdec x ref subrow =>
    have hx := decodeX_of_spanOk h
    cases ref with
    | entry w =>
      simp [decodeOperands, Instr.code, Instr.operandBytes, bytes16, hx, word16_bytes, decodeRef_entry, field_setWidth]
    | fields n =>
      simp [decodeOperands, Instr.code, Instr.operandBytes, bytes16, hx, word16_bytes, decodeRef_fields, field_subrow_or]
  | rowrun x addr ncols subrow =>
    obtain ⟨hspan, hcols⟩ := Bool.and_eq_true_iff.mp h
    have hcols : ncols ≤ 41 := of_decide_eq_true hcols
    simp [decodeOperands, Instr.code, Instr.operandBytes, bytes16, decodeX_of_spanOk hspan, word16_bytes,
      field_columnCount hcols, field_setWidth]
  | plane line base hscroll vscroll =>
    simp [decodeOperands, Instr.code, Instr.operandBytes, bytes16, word16_bytes, field_setWidth]
  | _ => rfl

/-- Settles O1, the code and then the operands of each operation. -/
theorem decodeOfEncodeIsIdentity : Obligations.DecodeOfEncodeIsIdentity := by
  intro i rest h
  rw [decode_encode_append, decodeOperands_operandBytes rest h]

/-- Settles O2, by running the decoder on the words. -/
theorem wordsOfTheTableDecode : Obligations.WordsOfTheTableDecode := by
  unfold Obligations.WordsOfTheTableDecode
  decide

/-! ### What the decoder answers -/

/-- R107: the codes of no operation. -/
abbrev UnusedCode (n : Nat) : Prop := (10 ≤ n ∧ n ≤ 15) ∨ (27 ≤ n ∧ n ≤ 30)

theorem code_not_unused (i : Instr) : ¬ UnusedCode i.code.toNat := by
  cases i <;> simp [UnusedCode, Instr.code]

/-- Both forms of `PATDEC` have five operand bytes. -/
theorem operandBytes_patdec_length (x : Int) (ref : PatRef) (subrow : BitVec 3) :
    (Instr.patdec x ref subrow).operandBytes.length = 5 := by cases ref <;> rfl

/-- An operation that is read has the code that was found, and its operand bytes stood before the bytes left over. -/
theorem decodeOperands_ok {op : BitVec 5} {bs : List Byte} {i : Instr} {rest : List Byte} :
    decodeOperands op bs = .ok (i, rest) →
      i.code.toNat = op.toNat ∧ bs.length = rest.length + i.operandBytes.length := by
  fun_cases decodeOperands op bs with
  | case23 | case24 => intro h; cases h
  | case13 _ _ _ _ _ _ hop => intro h; cases h; exact ⟨hop.symm, by rw [operandBytes_patdec_length]; rfl⟩
  | _ => intro h; cases h; exact ⟨Eq.symm ‹_›, rfl⟩

/-- R107, log 1: the two reasons why bytes are no operation. -/
theorem decodeOperands_error {op : BitVec 5} {bs : List Byte} {e : DecodeError} :
    decodeOperands op bs = .error e → e = if UnusedCode op.toNat then .unusedCode op else .truncated := by
  fun_cases decodeOperands op bs with
  | case23 => intro h; cases h; exact (if_pos ‹_›).symm
  | case24 => intro h; cases h; exact (if_neg ‹_›).symm
  | _ => intro h; cases h

theorem field_code_toNat (b : Byte) : (field b 0 5).toNat = b.toNat % 32 := by
  rw [field_toNat, pow_zero, Nat.div_one]; rfl

/-- R107: no operation has an unused code. -/
theorem decode_of_unusedCode {b : Byte} (h : UnusedCode (b.toNat % 32)) (bs : List Byte) :
    decode (b :: bs) = .error (.unusedCode (field b 0 5)) := by
  rw [← field_code_toNat] at h
  rw [decode_cons]
  cases hd : decodeOperands (field b 0 5) bs with
  | ok r =>
    obtain ⟨hcode, -⟩ := decodeOperands_ok hd
    exact absurd (hcode ▸ h) (code_not_unused r.1)
  | error e => rw [decodeOperands_error hd, if_pos h]

/-! ### Operand counts (R115, log 1) -/

theorem operandCounts_not_unused {c n : Nat} (h : (c, n) ∈ operandCounts) : ¬ UnusedCode c := by
  have hall : ∀ p ∈ operandCounts, ¬ UnusedCode p.1 := by decide
  exact hall _ h

/-- The counts are those of the encoder. -/
theorem operandCounts_eq_length {i : Instr} {n : Nat} (h : (i.code.toNat, n) ∈ operandCounts) :
    n = i.operandBytes.length := by
  cases i with
  | clear | dispgate | backdrop | planegate | configcheck | done | sprtrav => simp [operandCounts, Instr.code] at h
  | patdec x ref subrow => rw [operandBytes_patdec_length]; simpa [operandCounts, Instr.code] using h
  | _ => simpa [operandCounts, Instr.code, Instr.operandBytes, bytes16] using h

/-- Log 1: fewer bytes than an operation's operands take are no operation. -/
theorem decode_of_short {b : Byte} {bs : List Byte} {n : Nat} (hn : (b.toNat % 32, n) ∈ operandCounts)
    (hlen : bs.length < n) : decode (b :: bs) = .error .truncated := by
  rw [← field_code_toNat] at hn
  rw [decode_cons]
  cases hd : decodeOperands (field b 0 5) bs with
  | ok r =>
    obtain ⟨hcode, hbytes⟩ := decodeOperands_ok hd
    have hcount : n = r.1.operandBytes.length := operandCounts_eq_length (hcode ▸ hn)
    omega
  | error e => rw [decodeOperands_error hd, if_neg (operandCounts_not_unused hn)]

end Sys2Proof

namespace Sys2Proof.Machine

open Sys2Proof.Safety Sys2Proof.Claims

/-! ### What a step does with the decoder's answer -/

theorem step_operation {s : State} (hb : s.busy = true) (hi : s.inputs = []) :
    step s = runBytes s.nextOperation { s with call := [] } := by
  rw [step, fetch_operation hb hi]

theorem step_request {s : State} {line : Byte} {rest : List Input} (hb : s.busy = false)
    (hi : s.inputs = .request line :: rest) : step s = runBytes (requestBytes line) { s with inputs := rest } := by
  rw [step, fetch_request hb hi]

theorem runBytes_of_decode_ok {bs rest : List Byte} {i : Instr} (h : decode bs = .ok (i, rest)) (s : State) :
    runBytes bs s = exec i s := by
  rw [runBytes, h]

theorem runBytes_of_decode_error {bs : List Byte} {e : DecodeError} (h : decode bs = .error e) (s : State) :
    runBytes bs s = .refused (decodeRefusal e) := by
  rw [runBytes, h]

/-- Log 3: bytes in `call` that are no operation are refused, whether a render is in progress or not. -/
theorem step_call_of_decode_error {s : State} {b : Byte} {bs : List Byte} {e : DecodeError} (hi : s.inputs = [])
    (hcall : s.call = b :: bs) (h : decode (b :: bs) = .error e) : step s = .refused (decodeRefusal e) := by
  have hb : s.busy = true := by simp [State.busy, hcall]
  have hn : s.nextOperation = b :: bs := by simp only [State.nextOperation, hcall]
  rw [step_operation hb hi, hn, runBytes_of_decode_error h]

/-- Settles O3: the decoder names the unused code, and the step refuses with it. -/
theorem unusedCodesAreRefused : Obligations.UnusedCodesAreRefused := by
  intro s b bs hi hcall hunused
  exact step_call_of_decode_error hi hcall (decode_of_unusedCode hunused bs)

/-- Settles O59: the decoder finds the operand bytes too few, and the step refuses. -/
theorem bytesThatEndEarlyAreRefused : Obligations.BytesThatEndEarlyAreRefused := by
  intro s b bs n hi hcall hn hlen
  exact step_call_of_decode_error hi hcall (decode_of_short hn hlen)

/-- Settles O4, by what the fetch finds on a busy and on an idle block. -/
theorem stepRunsTheDecodedOperation : Obligations.StepRunsTheDecodedOperation := by
  refine ⟨fun s i rest hb hi hd => ?_, fun s line rest hb hi => ?_⟩
  · rw [step_operation hb hi, runBytes_of_decode_ok hd]
  · have hd : decode (requestBytes line) = .ok (.render line, []) := rfl
    rw [step_request hb hi, runBytes_of_decode_ok hd]

/-! ### Lines past the screen (R113, R216) -/

/-- Settles O44: each operation with a line operand stands under the line guard, RENDER under it on an idle block. -/
theorem linesPastTheScreenAreRefused : Obligations.LinesPastTheScreenAreRefused := by
  intro line s hline
  refine ⟨fun hs => ?_, fun base hscroll vscroll => onLine_of_le hline _, ?_⟩
  · change execRender line s = _
    rw [execRender, if_neg (by simp [hs]), onLine_of_le hline]
  · simp only [List.forall_mem_cons]
    exact ⟨onLine_of_le hline _, onLine_of_le hline _, onLine_of_le hline _, onLine_of_le hline _, onLine_of_le hline _,
      onLine_of_le hline _, onLine_of_le hline _, onLine_of_le hline _, fun _ h => absurd h List.not_mem_nil⟩

end Sys2Proof.Machine
end

section
/-! SUPPORT. The compositor: the channel EXPAND returns, what DRAW leaves in its cell and in the others, what any draws
at one cell leave in it, and that whatever only draws never lowers a priority. -/

namespace Sys2Proof.Machine

open Sys2Proof.Claims

/-! ### EXPAND (R130) -/

theorem expand_toNat (v3 : BitVec 3) : (expand v3).toNat = v3.toNat * 32 + v3.toNat * 4 + v3.toNat / 2 := by
  revert v3; decide

/-- The table of R130. -/
theorem expand_table (v3 : BitVec 3) :
    [0, 36, 73, 109, 146, 182, 219, 255][v3.toNat]? = some (expand v3).toNat := by
  revert v3; decide

/-- Settles O13: EXPAND returns `expand v3`, whose formula and table are checked at the eight values. -/
theorem expandReturnsTheChannel : Obligations.ExpandReturnsTheChannel := fun v3 _ =>
  ⟨expand v3, rfl, rfl, expand_toNat v3, expand_table v3⟩

/-! ### One draw (R131) -/

section
variable {color : Color} {prio : BitVec 1} {c : PixelCell}

theorem composite_of_le (h : c.prio.toNat ≤ prio.toNat) : composite color prio c = drawnCell color prio := if_pos h

theorem composite_of_lt (h : prio.toNat < c.prio.toNat) : composite color prio c = c := if_neg (Nat.not_le.mpr h)

/-- R131, R132: after a draw the cell holds the greater of its priority and the draw's. -/
theorem composite_prio (color : Color) (prio : BitVec 1) (c : PixelCell) :
    (composite color prio c).prio.toNat = max c.prio.toNat prio.toNat := by
  rcases Nat.lt_or_ge prio.toNat c.prio.toNat with h | h
  · rw [composite_of_lt h, Nat.max_eq_left h.le]
  · rw [composite_of_le h, drawnCell_prio, Nat.max_eq_right h]

end

/-- DRAW where there is a cell completes, composites that cell, and changes nothing else. -/
theorem exec_draw_next {s : State} {x : Int} {c : PixelCell} (hc : s.work.lb.cell x = some c) (color : Color)
    (prio : BitVec 1) : ∃ t, exec (.draw x color prio) s = .next t ∧
      t.work.lb.cell x = some (composite color prio c) ∧ (∀ y, y ≠ x → t.work.lb.cell y = s.work.lb.cell y) ∧
      OnlyLb s t := by
  obtain ⟨lb, hlb, hcell⟩ := drawCell_shows (LineBuf.mem_of_cell hc) color prio s.work.lb
  have hexec : exec (.draw x color prio) s = .next (s.setLb lb) := by
    change onLb s (drawCell x color prio s.work.lb) = _
    rw [hlb, onLb_next]
  refine ⟨s.setLb lb, hexec, ?_, fun y hy => ?_, rfl, fun _ => rfl⟩
  · simp [hcell, hc]
  · simp [hcell, hy]

/-- Settles O14: the cell is composited, which is to write it or to leave it, by the two priorities. -/
theorem drawWritesWhenPriorityIsAtLeastTheCells : Obligations.DrawWritesWhenPriorityIsAtLeastTheCells := by
  intro x color prio s hlo hhi
  obtain ⟨c, hc⟩ := s.work.lb.cell_of_mem ⟨hlo, hhi⟩
  obtain ⟨t, ht, hcell, hother, honly⟩ := exec_draw_next hc color prio
  have hprio : prio.setWidth 8 = BitVec.ofNat 8 prio.toNat := by apply BitVec.eq_of_toNat_eq; simp
  refine ⟨t, c, ht, hc, fun h => ?_, fun h => ?_, hother, honly⟩
  · rw [hcell, composite_of_le h, drawnCell, hprio]
  · rw [hcell, composite_of_lt h]

/-! ### Draws at one cell (R133, R135) -/

/-- Settles O15: both orders complete; the second draw finds the greater of the cell's priority and the first's. -/
theorem priorityThenOrderDecides : Obligations.PriorityThenOrderDecides := by
  intro x c1 c2 p1 p2 s c hc hcp hp
  obtain ⟨t12, ht12, hcell12, -⟩ := exec_draw_next hc c1 p1
  obtain ⟨u12, hu12, hshow12, -⟩ := exec_draw_next hcell12 c2 p2
  obtain ⟨t21, ht21, hcell21, -⟩ := exec_draw_next hc c2 p2
  obtain ⟨u21, hu21, hshow21, -⟩ := exec_draw_next hcell21 c1 p1
  refine ⟨t12, t21, u12, u21, ht12, hu12, ht21, hu21, ?_, fun hlt => ?_, fun heq => ?_⟩
  · have hfirst : (composite c1 p1 c).prio.toNat ≤ p2.toNat := by rw [composite_prio]; exact max_le hcp hp
    rw [hshow12, composite_of_le hfirst]; rfl
  · have hkept : p1.toNat < (drawnCell c2 p2).prio.toNat := by rwa [drawnCell_prio]
    rw [hshow21, composite_of_le hcp, composite_of_lt hkept]; rfl
  · have hover : (drawnCell c2 p2).prio.toNat ≤ p1.toNat := by rw [drawnCell_prio, heq]
    rw [hshow21, composite_of_le hcp, composite_of_le hover]; rfl

/-- What draws of these colours and priorities, in the order of the list, make of the cell they find. -/
def compositeEach (ds : List (Color × BitVec 1)) (c : PixelCell) : PixelCell :=
  ds.foldl (fun c d => composite d.1 d.2 c) c

@[simp] theorem compositeEach_nil (c : PixelCell) : compositeEach [] c = c := rfl

@[simp] theorem compositeEach_cons (d : Color × BitVec 1) (ds : List (Color × BitVec 1)) (c : PixelCell) :
    compositeEach (d :: ds) c = compositeEach ds (composite d.1 d.2 c) := rfl

theorem compositeEach_append (ds es : List (Color × BitVec 1)) (c : PixelCell) :
    compositeEach (ds ++ es) c = compositeEach es (compositeEach ds c) := List.foldl_append

/-- Draws where there is a cell complete in turn and leave there what they make of it. -/
theorem drawEach_next {x : Int} (ds : List (Color × BitVec 1)) {s : State} {c : PixelCell}
    (hc : s.work.lb.cell x = some c) :
    ∃ t, drawEach x ds s = .next t ∧ t.work.lb.cell x = some (compositeEach ds c) := by
  induction ds generalizing s c with
  | nil => exact ⟨s, rfl, hc⟩
  | cons d ds ih =>
    obtain ⟨m, hm, hcell, -⟩ := exec_draw_next hc d.1 d.2
    obtain ⟨t, ht, hshow⟩ := ih hcell
    exact ⟨t, by rw [drawEach, hm, andThen_next, ht], hshow⟩

theorem compositeEach_prio_le {ds : List (Color × BitVec 1)} {n : Nat} (h : ∀ d ∈ ds, d.2.toNat ≤ n) {c : PixelCell}
    (hc : c.prio.toNat ≤ n) : (compositeEach ds c).prio.toNat ≤ n := by
  induction ds generalizing c with
  | nil => exact hc
  | cons d ds ih =>
    obtain ⟨hd, hds⟩ := List.forall_mem_cons.mp h
    exact ih hds (by rw [composite_prio]; exact max_le hc hd)

theorem compositeEach_of_lt {ds : List (Color × BitVec 1)} {c : PixelCell} (h : ∀ d ∈ ds, d.2.toNat < c.prio.toNat) :
    compositeEach ds c = c := by
  induction ds with
  | nil => rfl
  | cons d ds ih =>
    obtain ⟨hd, hds⟩ := List.forall_mem_cons.mp h
    rw [compositeEach_cons, composite_of_lt hd, ih hds]

/-- Settles O16: the draws before leave a priority of at most `p`, so the draw of `col` is written, and those after find
`p` and write nothing. -/
theorem lastOfTheHighestPriorityShows : Obligations.LastOfTheHighestPriorityShows := by
  intro x before after col p s c hc hcp hbefore hafter
  obtain ⟨t, ht, hshow⟩ := drawEach_next (before ++ (col, p) :: after) hc
  have hwritten : composite col p (compositeEach before c) = drawnCell col p :=
    composite_of_le (compositeEach_prio_le hbefore hcp)
  have hkept : compositeEach after (drawnCell col p) = drawnCell col p :=
    compositeEach_of_lt (by rwa [drawnCell_prio])
  refine ⟨t, ht, ?_⟩
  rw [hshow, compositeEach_append, compositeEach_cons, hwritten, hkept]

/-! ### Priorities never fall (R132) -/

/-- Every cell of the first line buffer has in the second at least the priority it had. -/
def PrioritiesRise (a b : LineBuf) : Prop :=
  ∀ y c, a.cell y = some c → ∃ d, b.cell y = some d ∧ c.prio.toNat ≤ d.prio.toNat

theorem drawCell_prioritiesRise {x : Int} {color : Color} {prio : BitVec 1} {a b : LineBuf}
    (h : drawCell x color prio a = .next b) : PrioritiesRise a b := by
  intro y c hc
  by_cases hx : -32 ≤ x ∧ x ≤ 351
  · obtain ⟨lb, hlb, hcell⟩ := drawCell_shows hx color prio a
    obtain rfl : b = lb := by rw [h] at hlb; injection hlb
    refine ⟨_, by rw [hcell, hc]; rfl, ?_⟩
    dsimp only
    split
    · rw [composite_prio]; exact le_max_left _ _
    · exact le_rfl
  · rw [drawCell_outside hx] at h; cases h

theorem prioritiesRise_drawClosed : DrawClosed PrioritiesRise where
  refl _ _ c hc := ⟨c, hc, le_rfl⟩
  trans _ _ _ hab hbc y c hc := by
    obtain ⟨d, hd, hcd⟩ := hab y c hc
    obtain ⟨e, he, hde⟩ := hbc y d hd
    exact ⟨e, he, hcd.trans hde⟩
  draw _ _ _ _ _ h := drawCell_prioritiesRise h

/-- What relates the line buffer before and after a drawing operation relates those of the states. -/
theorem onLb_next_lb {R : LineBuf → LineBuf → Prop} {s t : State} {o : Host.Outcome LineBuf Fault Refusal}
    (h : onLb s o = .next t) (hdraw : ∀ lb, o = .next lb → R s.work.lb lb) : R s.work.lb t.work.lb := by
  obtain ⟨lb, hlb, rfl⟩ := onLb_eq_next.mp h
  exact hdraw lb hlb

theorem State.configChecked_of_none {s : State} (h : configFault s.ext.regf = none) :
    s.configChecked = s.atStage .scrollFetch := by
  rw [State.configChecked, h]

/-- An operation that neither fills the line buffer nor ends a render changes it by draws alone. -/
theorem DrawClosed.exec_next {R : LineBuf → LineBuf → Prop} (hR : DrawClosed R) {i : Instr} {s t : State}
    (hclear : i ≠ .clear) (hbackdrop : i ≠ .backdrop) (hdone : i ≠ .done) (hrequest : i.kind ≠ .request)
    (hcheck : i = .configcheck → configFault s.ext.regf = none) (h : exec i s = .next t) :
    R s.work.lb t.work.lb := by
  cases i with
  | clear => exact absurd rfl hclear
  | backdrop => exact absurd rfl hbackdrop
  | done => exact absurd rfl hdone
  | render line => exact absurd rfl hrequest
  | configcheck =>
    cases h
    rw [State.configChecked_of_none (hcheck rfl)]
    exact hR.refl _
  | dispgate | planegate | expand v3 | sprtrav | sprdecode i => cases h; exact hR.refl _
  | scrollfetch line | hsfetch line | sprplan line =>
    obtain ⟨-, h⟩ := onLine_eq_next.mp h
    cases h; exact hR.refl _
  | draw x color prio => exact onLb_next_lb h fun _ => hR.draw _ _ _ _ _
  | patdec x ref subrow => exact onLb_next_lb h fun _ => hR.patdecF
  | rowrun x addr ncols subrow => exact onLb_next_lb h fun _ => hR.rowRun
  | plane line base hscroll vscroll => exact onLb_next_lb (onLine_eq_next.mp h).2 fun _ => hR.planeRun
  | window line => exact onLb_next_lb (onLine_eq_next.mp h).2 fun _ => hR.windowRun
  | sprdraw line => exact onLb_next_lb (onLine_eq_next.mp h).2 fun _ => hR.spriteDraw
  | planeb line =>
    exact onLb_next_lb (s := s.atStage .winOrPlaneA) (onLine_eq_next.mp h).2 fun _ => hR.planeRun
  | winsel line =>
    refine onLb_next_lb (s := s.atStage .sprites) (onLine_eq_next.mp h).2 fun lb hlb => ?_
    split at hlb
    · exact hR.windowRun hlb
    · exact hR.planeRun hlb
  | sprites line =>
    exact onLb_next_lb (s := ((s.setChain (spriteChain s.ext)).planned line.toNat).atStage .done)
      (onLine_eq_next.mp h).2 fun _ => hR.spriteDraw

/-- Settles O17: the operations that remain only draw, and a draw takes the greater of two priorities. -/
theorem priorityNeverDecreases : Obligations.PriorityNeverDecreases :=
  fun _ _ _ hclear hbackdrop hdone hrequest hcheck h =>
    prioritiesRise_drawClosed.exec_next hclear hbackdrop hdone hrequest hcheck h

end Sys2Proof.Machine
end

section
/-! SUPPORT. The pattern decoder: what PATDEC leaves in the eight cells of its tile row, in the numbers of R91 to R104,
and that a tile of index 0 throughout issues no draw. -/

namespace Sys2Proof.Machine

open Sys2Proof.Claims Sys2Proof.Picture

/-! ### A tile row over its cells (R140 to R144) -/

/-- PATDEC inside the buffer, in either form, completes, shows its tile row, and changes nothing else. -/
theorem exec_patdec_next {x : Int} (hlo : -32 ≤ x) (hhi : x + 7 ≤ 351) (ref : PatRef) (subrow : BitVec 3) (s : State) :
    ∃ t, exec (.patdec x ref subrow) s = .next t ∧ CellsTurnedBy s t (tileAt s.ext (refFields ref) subrow x) ∧
      OnlyLb s t := by
  obtain ⟨lb, hlb, hcell⟩ := patdecF_shows s.ext hlo (by omega) (refFields ref) subrow s.work.lb
  have hexec : exec (.patdec x ref subrow) s = .next (s.setLb lb) := by
    change onLb s (patdecF s.ext x (refFields ref) subrow s.work.lb) = _
    rw [hlb, onLb_next]
  exact ⟨s.setLb lb, hexec, hcell, rfl, fun _ => rfl⟩

/-- R141: screen pixel `i` of a tile stands at `x + i`. -/
theorem tileAt_add (e : Snapshot) (n : NtEntry) (subrow : BitVec 3) (x : Int) {i : Nat} (hi : i < 8) (c : PixelCell) :
    tileAt e n subrow x (x + i) c = tileOver e n subrow i c := by
  have hin : x ≤ x + (i : Int) ∧ x + (i : Int) < x + 8 := by omega
  have hat : (x + (i : Int) - x).toNat = i := by omega
  rw [tileAt, if_pos hin, hat]

/-- R131, R141, R144: what a pixel index, given as a number, does to a cell. -/
theorem paint_ofNat (e : Snapshot) (palrow : BitVec 2) (prio : BitVec 1) {index : Nat} (h : index < 16) (c : PixelCell) :
    paint e palrow prio (BitVec.ofNat 4 index) c =
      if index = 0 ∨ prio.toNat < c.prio.toNat then c
      else drawnCell (palRead e (BitVec.ofNat 6 (16 * palrow.toNat + index))) prio := by
  have hindex : (BitVec.ofNat 4 index).toNat = index := Nat.mod_eq_of_lt h
  have hzero : BitVec.ofNat 4 index = 0#4 ↔ index = 0 := by rw [← BitVec.toNat_inj, hindex]; rfl
  rw [paint, hindex]
  by_cases h0 : index = 0
  · rw [if_pos (hzero.mpr h0), if_pos (.inl h0)]
  · rw [if_neg (mt hzero.mp h0)]
    rcases Nat.lt_or_ge prio.toNat c.prio.toNat with hlt | hle
    · rw [composite_of_lt hlt, if_pos (.inr hlt)]
    · rw [composite_of_le hle, if_neg (not_or.mpr ⟨h0, Nat.not_lt.mpr hle⟩)]

/-- R92: either nibble of a byte is below 16. -/
theorem nibble_lt (b : Byte) (k : Nat) : (if k % 2 = 0 then b.toNat / 16 else b.toNat % 16) < 16 := by
  have := b.isLt
  split <;> omega

/-- R131: a drawn cell, its priority as a number. -/
theorem drawnCell_eq (color : Color) (prio : BitVec 1) : drawnCell color prio =
    { r := expand color.r3, g := expand color.g3, b := expand color.b3, prio := BitVec.ofNat 8 prio.toNat } := by
  rw [drawnCell, BitVec.ofNat_toNat]

/-- Settles O18: both forms show `tileAt`, whose pixel at `x + i` paints the nibble read from the tile. -/
theorem patdecShowsItsEightPixels : Obligations.PatdecShowsItsEightPixels := by
  intro x n w subrow s hlo hhi
  obtain ⟨t, ht, hcells, honly⟩ := exec_patdec_next hlo hhi (.fields n) subrow s
  obtain ⟨u, hu, hcells', honly'⟩ := exec_patdec_next hlo hhi (.entry w) subrow s
  refine ⟨⟨t, ht, hcells, honly, fun i hi => ?_⟩, u, hu, honly', ?_⟩
  · rw [hcells]
    refine congrArg (Option.map · _) (funext fun c => ?_)
    rw [tileAt_add _ _ _ _ hi, refFields, tileOver, tilePixel, storedPixel, paint_ofNat _ _ _ (nibble_lt _ _), drawnCell_eq]
  · rwa [refFields, ofWord_eq] at hcells'

/-! ### Tiles of index 0 (R144) -/

/-- R144: pixels of index 0 issue no draw, wherever they stand. -/
theorem drawPixels_of_zero (e : Snapshot) (palrow : BitVec 2) (prio : BitVec 1) {ps : List (BitVec 4)}
    (h : ∀ p ∈ ps, p = 0#4) (x : Int) (lb : LineBuf) : drawPixels e palrow prio ps x lb = .next lb := by
  induction ps generalizing x with
  | nil => rfl
  | cons p ps ih =>
    obtain ⟨hp, hps⟩ := List.forall_mem_cons.mp h
    rw [drawPixels, if_pos hp, andThen_next, ih hps]

/-- R103: every pixel of a tile lies in the tile's 32 bytes, so it is 0 if these are. -/
theorem storedPixel_of_empty {e : Snapshot} {tile : BitVec 11} (h : ∀ k < 32, memRead1 e (tile.toNat * 32 + k) = 0#8)
    {r k : Nat} (hr : r < 8) (hk : k < 8) : storedPixel e tile r k = 0#4 := by
  have hbyte : memRead1 e (32 * tile.toNat + 4 * r + k / 2) = 0#8 := by
    rw [Nat.mul_comm 32, Nat.add_assoc]; exact h _ (by omega)
  simp [storedPixel, hbyte]

/-- R142, R143: mirrored or not, a screen pixel is a pixel of the tile. -/
theorem tilePixel_of_empty {e : Snapshot} {n : NtEntry} (h : ∀ k < 32, memRead1 e (n.tile.toNat * 32 + k) = 0#8)
    (subrow : BitVec 3) {i : Nat} (hi : i < 8) : tilePixel e n subrow i = 0#4 :=
  storedPixel_of_empty h (by split <;> omega) (by split <;> omega)

theorem patternPixels_of_empty {e : Snapshot} {n : NtEntry} (h : ∀ k < 32, memRead1 e (n.tile.toNat * 32 + k) = 0#8)
    (subrow : BitVec 3) : ∀ p ∈ patternPixels e n subrow, p = 0#4 := by
  intro p hp
  obtain ⟨i, hi, rfl⟩ := List.mem_iff_getElem.mp hp
  have hi8 : i < 8 := patternPixels_length e n subrow ▸ hi
  have hpixel := patternPixels_getElem e n subrow hi8
  rw [List.getElem?_eq_getElem hi, tilePixel_of_empty h subrow hi8] at hpixel
  exact Option.some.inj hpixel

/-- Settles O19: every pixel of an empty tile has index 0, and such pixels issue no draw. -/
theorem emptyTilesDrawNothing : Obligations.EmptyTilesDrawNothing := by
  intro x n subrow s hempty
  change onLb s (drawPixels s.ext n.palrow n.prio (patternPixels s.ext n subrow) x s.work.lb) = _
  rw [drawPixels_of_zero _ _ _ (patternPixels_of_empty hempty subrow)]
  rfl

end Sys2Proof.Machine
end

section
/-! SUPPORT. The row renderer: what ROWRUN leaves in the cells of its columns. -/

namespace Sys2Proof.Machine

open Sys2Proof.Claims Sys2Proof.Picture

/-- An operation of the line buffer that shows `f` completes as an operation of the state: it turns the cells by `f` and
changes nothing else. -/
theorem Shows.onLb {s : State} {o : Host.Outcome LineBuf Fault Refusal} {f : Int → PixelCell → PixelCell}
    (h : Shows o s.work.lb f) : ∃ t, onLb s o = .next t ∧ OnlyLb s t ∧ CellsTurnedBy s t f := by
  obtain ⟨lb, rfl, hcell⟩ := h
  exact ⟨s.setLb lb, onLb_next s lb, ⟨rfl, fun _ => rfl⟩, hcell⟩

/-- Settles O20: ROWRUN is the run of its columns in the line buffer, which inside the buffer shows `runAt`. -/
theorem rowrunShowsItsRun : Obligations.RowrunShowsItsRun := by
  intro x addr ncols subrow s hlo hhi
  exact (rowRun_shows s.ext subrow ncols hlo hhi addr.toNat s.work.lb).onLb

end Sys2Proof.Machine
end

section
/-! SUPPORT. The plane renderer: what PLANE leaves in the cells, where the strip and the entries past a narrow row stand in
it, and that a reserved size code is refused. -/

namespace Sys2Proof.Machine

open Sys2Proof.Claims Sys2Proof.Picture

/-! ### PLANE completes (R155 to R161) -/

/-- R100: the size codes that exist. -/
theorem planeTiles_of_sizeCode {code : BitVec 2} {tiles : Nat} (h : SizeCode code tiles) : planeTiles code = some tiles := by
  obtain ⟨rfl, rfl⟩ | ⟨rfl, rfl⟩ | ⟨rfl, rfl⟩ := h <;> rfl

/-- R155: with two sizes that exist, PLANE completes, shows its two passes, and changes nothing else. -/
theorem exec_plane_next {s : State} {wt ht : Nat} {line : Byte} (hl : line.toNat < 224)
    (hw : planeTiles s.ext.regf.planeWCode = some wt) (hh : planeTiles s.ext.regf.planeHCode = some ht)
    (base : Word) (hscroll vscroll : BitVec 10) :
    ∃ t, exec (.plane line base hscroll vscroll) s = .next t ∧ OnlyLb s t ∧
      CellsTurnedBy s t (planeAt s.ext wt ht line.toNat base.toNat hscroll.toNat vscroll.toNat) := by
  change ∃ t, execPlane line base hscroll vscroll s = .next t ∧ _
  rw [execPlane, onLine_of_lt hl]
  exact (planeRun_shows s.ext hw hh _ _ _ _ _).onLb

/-- Settles O22: the two passes of PLANE are row runs inside the line buffer. -/
theorem planeShowsItsTwoPasses : Obligations.PlaneShowsItsTwoPasses := by
  intro line base hscroll vscroll s wt ht hl hw hh
  exact exec_plane_next hl (planeTiles_of_sizeCode hw) (planeTiles_of_sizeCode hh) base hscroll vscroll

/-! ### The strip and the entries past its end (R162, R163) -/

/-- R160, R161: the column the two passes show at a position is the wrapped one, up to the right edge of pass 1's row. -/
theorem planeColumn_eq_emod {w : Nat} (hw : 0 < w) (h : Nat) {y : Int} (h0 : 0 ≤ y) (hy : y < ((h % w : Nat) : Int) + w) :
    (if ((h % w : Nat) : Int) ≤ y then y - (h % w : Nat) else y + (w - h % w : Nat)) = (y - h) % w := by
  have hmod : (y - (h % w : Nat)) % (w : Int) = (y - h) % w := by rw [Int.natCast_emod, Int.sub_emod_emod]
  have hlt : h % w < w := Nat.mod_lt _ hw
  split
  · rw [← hmod, Int.emod_eq_of_lt (by omega) (by omega)]
  · rw [← hmod, ← Int.add_emod_right, Int.emod_eq_of_lt (by omega) (by omega)]; omega

/-- R162: a plane shows the wrapping strip at every visible position before the end of pass 1's row. -/
theorem planeAt_eq_stripAt (e : Snapshot) {wt : Nat} (hwt : 0 < wt) (ht line base h v : Nat) {y : Int} (h0 : 0 ≤ y)
    (h1 : y < 320) (hy : y < ((h % (wt * 8) : Nat) : Int) + (wt * 8 : Nat)) :
    planeAt e wt ht line base h v y = stripAt e wt ht line base h v y := by
  funext c
  have hcol := planeColumn_eq_emod (by omega) h h0 hy
  rw [planeAt_eq e hwt ht line base h v h0 h1, stripAt, ← hcol]
  rfl

/-- R163: from the end of a row of 32 tiles on, a plane shows the entries that follow the row, at the same sub-row. -/
theorem planeAt_past_row (e : Snapshot) (ht line base h v : Nat) {y : Int} (h0 : 0 ≤ y) (h1 : y < 320)
    (hy : ((h % 256 : Nat) : Int) + 256 ≤ y) (c : PixelCell) :
    planeAt e 32 ht line base h v y c =
      (let r := (v + line) % (ht * 8)
       let k := (y - (h % 256 : Nat) - 256).toNat
       tileOver e (entryOf (memRead2 e (base + r / 8 * 64 + 64 + 2 * (k / 8)))) (BitVec.ofNat 3 (r % 8)) (k % 8) c) := by
  have hpass1 : ((planeLine 32 ht line base h v).sx : Int) ≤ y := show ((h % 256 : Nat) : Int) ≤ y by omega
  rw [planeAt_eq e (by decide) ht line base h v h0 h1]
  simp only [if_pos hpass1]
  simp only [planeLine, runEntry, Config.ntEntryBytes, Nat.reduceMul]
  generalize (v + line) % (ht * 8) = r
  have hcol : (y - (h % 256 : Nat)).toNat = (y - (h % 256 : Nat) - 256).toNat + 256 := by omega
  have haddr (k : Nat) : base + r / 8 * 32 * 2 + 2 * ((k + 256) / 8) = base + r / 8 * 64 + 64 + 2 * (k / 8) := by omega
  have hpixel (k : Nat) : (k + 256) % 8 = k % 8 := by omega
  rw [hcol, haddr, hpixel]

/-- Settles O23: a row of 64 or 128 tiles is wider than the screen, so the strip has no end on it. -/
theorem widePlanesAreWrappingStrips : Obligations.WidePlanesAreWrappingStrips := by
  intro line base hscroll vscroll s wt ht hl hw hh hne
  obtain ⟨t, hexec, -, hcells⟩ :=
    exec_plane_next hl (planeTiles_of_sizeCode hw) (planeTiles_of_sizeCode hh) base hscroll vscroll
  have hwide : 64 ≤ wt := by
    obtain ⟨h0, -⟩ | ⟨-, rfl⟩ | ⟨-, rfl⟩ := hw
    · exact absurd h0 hne
    · decide
    · decide
  refine ⟨t, hexec, fun y h0 h1 => ?_⟩
  rw [hcells, planeAt_eq_stripAt s.ext (by omega) _ _ _ _ _ h0 h1 (by omega)]

/-- Settles O24: the strip of a narrow row ends at `sx + 256`, where pass 1 reads on past the row. -/
theorem narrowPlanesRunPastTheirRow : Obligations.NarrowPlanesRunPastTheirRow := by
  intro line base hscroll vscroll s ht hl hw hh
  obtain ⟨t, hexec, -, hcells⟩ :=
    exec_plane_next hl (planeTiles_of_sizeCode (.inl ⟨hw, rfl⟩)) (planeTiles_of_sizeCode hh) base hscroll vscroll
  refine ⟨t, hexec, fun y h0 h1 => ⟨fun hy => ?_, fun hy => ?_⟩⟩
  · rw [hcells, planeAt_eq_stripAt s.ext (by decide) _ _ _ _ _ h0 h1 hy]
  · rw [hcells, funext (planeAt_past_row s.ext ht line.toNat base.toNat hscroll.toNat vscroll.toNat h0 h1 hy)]

/-! ### Reserved sizes (R155, log 14) -/

/-- R225, R106: the window test, as a plain proposition. -/
theorem windowSelected_iff {f : RegFields} {line : Byte} : windowSelected f line.toNat = true ↔ WindowLine f line := by
  have hbit : ∀ b : BitVec 1, b ≠ 1#1 → b = 0#1 := by decide
  unfold windowSelected WindowLine
  by_cases hpos : f.winVpos = 0#5
  · simp [hpos]
  by_cases hdown : f.winDown = 1#1
  · simp [hpos, hdown]
  · simp [hpos, hbit _ hdown]

/-- A refusal of the line buffer's operation is the state's. -/
theorem onLb_refused (s : State) (r : Refusal) : onLb s (.refused r) = .refused r := rfl

/-- Settles O25: each of the three operations is a plane on the line buffer, which is refused. -/
theorem planeOfAReservedSizeIsRefused : Obligations.PlaneOfAReservedSizeIsRefused := by
  intro line s hl hsize
  refine ⟨fun base hscroll vscroll => ?_, ?_, fun hwin => ?_⟩
  · change execPlane line base hscroll vscroll s = _
    rw [execPlane, onLine_of_lt hl, planeRun_reserved s.ext hsize, onLb_refused]
  · change execPlaneb line s = _
    rw [execPlaneb, onLine_of_lt hl, State.planeBStage, planeRun_reserved s.ext hsize, onLb_refused]
  · change execWinsel line s = _
    rw [execWinsel, onLine_of_lt hl, State.winOrPlaneAStage, if_neg (mt windowSelected_iff.mp hwin),
      planeRun_reserved s.ext hsize, onLb_refused]

end Sys2Proof.Machine
end

section
/-! SUPPORT. The window: what WINDOW leaves in the cells, and what a render past ScrollFetch answers with on a line of the
window, where nothing of plane A is read. -/

namespace Sys2Proof.Machine

open Sys2Proof.Claims Sys2Proof.Picture Sys2Proof.Safety

/-! ### WINDOW (R170, R171) -/

/-- R170: on every line of the screen, WINDOW completes, shows its run, and changes nothing else. -/
theorem exec_window_next {line : Byte} (hl : line.toNat < 224) (s : State) :
    ∃ t, exec (.window line) s = .next t ∧ OnlyLb s t ∧ CellsTurnedBy s t (windowAt s.ext line.toNat) := by
  change ∃ t, execWindow line s = .next t ∧ _
  rw [execWindow, onLine_of_lt hl]
  exact (windowRun_shows s.ext line.toNat s.work.lb).onLb

/-- R170, R171: the window's run in numbers, 40 columns from position 0 on. -/
theorem windowAt_eq (e : Snapshot) (line : Nat) (y : Int) (c : PixelCell) :
    windowAt e line y c = if 0 ≤ y ∧ y < 320 then
      tileOver e (entryOf (memRead2 e (e.regf.baseW.toNat + line / 8 * 128 + 2 * (y.toNat / 8)))) (BitVec.ofNat 3 line)
        (y.toNat % 8) c
      else c := by
  have hsub : BitVec.ofNat 3 (line % 8) = BitVec.ofNat 3 line := BitVec.eq_of_toNat_eq (Nat.mod_mod line 8)
  rw [windowAt, runAt, runEntry, hsub, Int.sub_zero]
  rfl

/-- Settles O26: WINDOW shows its run, whose row stands 128 bytes after the one above it. -/
theorem windowShowsFortyColumns : Obligations.WindowShowsFortyColumns := by
  intro line s hl
  obtain ⟨t, hexec, honly, hcells⟩ := exec_window_next hl s
  refine ⟨t, hexec, honly, fun y => ?_⟩
  rw [hcells, funext (windowAt_eq s.ext line.toNat y)]

/-! ### A render in progress, stage by stage (log 4) -/

/-- A render in progress whose next step runs stage `st`: nothing is called and nothing pending. -/
structure StandsAt (s : State) (st : Stage) : Prop where
  stage : s.stage = some st
  call : s.call = []
  inputs : s.inputs = []

/-- What keeps `call` and the pending inputs stands at the stage it moved to. -/
theorem StandsAt.moved {s t : State} {st next : Stage} (h : StandsAt s st) (hk : Keeps s t) (hst : t.stage = some next) :
    StandsAt t next :=
  ⟨hst, hk.call.trans h.call, hk.inputs.trans h.inputs⟩

/-- R217: the step of a render in progress is the operation of its stage. -/
theorem StandsAt.step_eq {s : State} {st : Stage} (h : StandsAt s st) : step s = exec (stageOp s.work.line st) s := by
  obtain ⟨hst, hcall, hinputs⟩ := h
  have hbusy : s.busy = true := by simp [State.busy, hst]
  have hnext : s.nextOperation = [st.code.setWidth 8, s.work.line] := by simp only [State.nextOperation, hcall, hst]
  have hself : { s with call := [] } = s := by rw [← hcall]
  rw [step_operation hbusy hinputs, hnext, hself, runBytes_stage]

theorem steps_succ_of_step {s t : State} (h : step s = .next t) (n : Nat) : steps (n + 1) s = steps n t := by
  rw [steps, h, andThen_next]

/-- What the line buffer's operation shows, the stage that runs it and moves to `st` shows. -/
theorem Shows.atStage {s : State} {o : Host.Outcome LineBuf Fault Refusal} {f : Int → PixelCell → PixelCell}
    (h : Shows o s.work.lb f) (st : Stage) : StageShows (Machine.onLb (s.atStage st) o) s st f := by
  obtain ⟨lb, rfl, hcell⟩ := h
  exact ⟨(s.atStage st).setLb lb, onLb_next _ lb, ⟨rfl, rfl, rfl, rfl, rfl, rfl, rfl⟩, rfl, hcell⟩

/-- R155: a plane draws whenever both its sizes exist, whatever else the configuration holds. -/
theorem planeRun_shows_of_sizes {e : Snapshot} (hw : e.regf.planeWCode ≠ 2#2) (hh : e.regf.planeHCode ≠ 2#2)
    (line base : Nat) (hscroll vscroll : BitVec 10) (lb : LineBuf) :
    Shows (planeRun e line base hscroll.toNat vscroll.toNat lb) lb (planeOf e line base hscroll vscroll) := by
  obtain ⟨wt, hwt⟩ := planeTiles_isSome hw
  obtain ⟨ht, hht⟩ := planeTiles_isSome hh
  exact (planeRun_shows e hwt hht line base _ _ lb).congr fun y c => by rw [planeOf, hwt, hht]

/-! ### A line of the window (R172) -/

/-- R224 to R226 on a line of the window: plane B with the scrolls latched for it, the window, the sprites. -/
def windowLineLayers (e : Snapshot) (line : Nat) (hsB vsB : BitVec 10) (y : Int) (c : PixelCell) : PixelCell :=
  spritesAt e line (spritePlan e line (spriteChain e)).plan y
    (windowAt e line y (planeOf e line e.regf.baseB.toNat hsB vsB y c))

/-- A plane, over two snapshots that agree on memory, palette and sizes. -/
theorem planeOf_congr {e e' : Snapshot} (hv : e'.vram = e.vram) (hp : e'.pal = e.pal)
    (hw : e'.regf.planeWCode = e.regf.planeWCode) (hh : e'.regf.planeHCode = e.regf.planeHCode) (line base : Nat)
    (hscroll vscroll : BitVec 10) (y : Int) (c : PixelCell) :
    planeOf e' line base hscroll vscroll y c = planeOf e line base hscroll vscroll y c := by
  unfold planeOf; simp only [planeAt_congr hv hp, hw, hh]

/-- R172: what the layers of a window line read; nothing of plane A is among it. -/
theorem windowLineLayers_congr {e e' : Snapshot} (hv : e'.vram = e.vram) (hp : e'.pal = e.pal)
    (hB : e'.regf.baseB = e.regf.baseB) (hW : e'.regf.baseW = e.regf.baseW) (hS : e'.regf.satBase = e.regf.satBase)
    (hw : e'.regf.planeWCode = e.regf.planeWCode) (hh : e'.regf.planeHCode = e.regf.planeHCode) (line : Nat)
    (hsB vsB : BitVec 10) : windowLineLayers e' line hsB vsB = windowLineLayers e line hsB vsB := by
  funext y c
  rw [windowLineLayers, spriteLayer_congr hv hp hS, windowAt_congr hv hp hW, planeOf_congr hv hp hw hh, hB, windowLineLayers]

/-- R224 to R227: on a line of the window a render past ScrollFetch ends in four steps, and answers with the layers over
the cells it found. -/
theorem steps_four_of_windowLine {s : State} (h : StandsAt s .planeB) (hl : s.work.line.toNat < 224)
    (hwin : WindowLine s.ext.regf s.work.line) (hw : s.ext.regf.planeWCode ≠ 2#2) (hh : s.ext.regf.planeHCode ≠ 2#2) :
    ∃ (t : State) (lb : LineBuf), steps 4 s = .next t ∧ t.stage = none ∧ t.response = some (.row lb.row) ∧
      ∀ y, lb.cell y = (s.work.lb.cell y).map (windowLineLayers s.ext s.work.line.toNat s.work.hsB s.work.vsB y) := by
  obtain ⟨t1, h1, k1, st1, c1⟩ :=
    (planeRun_shows_of_sizes hw hh s.work.line.toNat s.ext.regf.baseB.toNat s.work.hsB s.work.vsB s.work.lb).atStage
      .winOrPlaneA
  obtain ⟨t2, h2, k2, st2, c2⟩ := (windowRun_shows t1.ext t1.work.line.toNat t1.work.lb).atStage .sprites
  obtain ⟨t3, h3, k3, st3, c3⟩ := spritesStage_shows t2 t2.work.line.toNat
  have at1 := h.moved k1 st1
  have at2 := at1.moved k2 st2
  have at3 := at2.moved k3 st3
  have line1 : t1.work.line = s.work.line := k1.line
  have line2 : t2.work.line = s.work.line := k2.line.trans line1
  have ext2 : t2.ext = s.ext := k2.ext.trans k1.ext
  have planeB : step s = .next t1 := h.step_eq.trans ((onLine_of_lt hl _).trans h1)
  have window : step t1 = .next t2 := by
    have hsel : windowSelected t1.ext.regf t1.work.line.toNat = true := by
      rw [k1.ext, line1]; exact windowSelected_iff.mpr hwin
    rw [at1.step_eq]
    change execWinsel t1.work.line t1 = _
    rw [execWinsel, onLine_of_lt (line1 ▸ hl), State.winOrPlaneAStage, if_pos hsel, h2]
  have sprites : step t2 = .next t3 := at2.step_eq.trans ((onLine_of_lt (line2 ▸ hl) _).trans h3)
  have done : step t3 = .next t3.delivered := at3.step_eq
  refine ⟨t3.delivered, t3.work.lb, ?_, rfl, rfl, fun y => ?_⟩
  · rw [steps_succ_of_step planeB, steps_succ_of_step window, steps_succ_of_step sprites, steps_succ_of_step done, steps]
  · rw [c3, c2, c1, ext2, k1.ext, line2, line1, Option.map_map, Option.map_map]
    rfl

/-- Two line buffers that agree in every cell are copied out as the same row. -/
theorem LineBuf.row_congr {a b : LineBuf} (h : ∀ y, a.cell y = b.cell y) : a.row = b.row :=
  Row.ext_pixels fun k hk => by rw [a.row_pixel hk, b.row_pixel hk, h]

/-- Settles O54: the pixels of a request read plane A only off the window, and the layers of a render past ScrollFetch read
neither its base nor its latches. -/
theorem windowLinesIgnorePlaneA : Obligations.WindowLinesIgnorePlaneA := by
  refine ⟨fun line s base v hs hl hwin => ?_, fun s base h v hst hcall hinputs hl hwin hw hh => ?_⟩
  · refine exec_render_same_response hs hs hl (renderResponse_congr rfl fun k _ => ?_)
    exact rowPixel_congr rfl rfl rfl rfl rfl rfl rfl rfl rfl rfl rfl rfl rfl rfl rfl
      fun hoff => absurd (windowSelected_iff.mpr hwin) hoff
  · have hlayers := windowLineLayers_congr (e := s.ext)
      (e' := { s.ext with regf := { s.ext.regf with baseA := base } }) rfl rfl rfl rfl rfl rfl rfl
      s.work.line.toNat s.work.hsB s.work.vsB
    obtain ⟨t, lb, hsteps, hstage, hresp, hcells⟩ := steps_four_of_windowLine ⟨hst, hcall, hinputs⟩ hl hwin hw hh
    obtain ⟨t', lb', hsteps', -, hresp', hcells'⟩ :=
      steps_four_of_windowLine (s := { s with work := { s.work with hsA := h, vsA := v },
                                              ext := { s.ext with regf := { s.ext.regf with baseA := base } } })
        ⟨hst, hcall, hinputs⟩ hl hwin hw hh
    have hrow : lb.row = lb'.row := LineBuf.row_congr fun y =>
      (hcells y).trans ((hcells' y).trans (congrArg (fun layers => (s.work.lb.cell y).map (layers y)) hlayers)).symm
    exact ⟨t, t', hsteps, hsteps', hstage, hresp ▸ rfl, by rw [hresp, hresp', hrow]⟩

end Sys2Proof.Machine
end

section
/-! SUPPORT. The scroll table: which slot each mode gives a line, what a field of a slot holds in numbers, and what HSFETCH
answers with on a line of the screen. -/

namespace Sys2Proof.Machine

/-! ### The slot of a line (R176) -/

theorem hsIndex_whole (line : Nat) : hsIndex 0#2 line = 0 := rfl

theorem hsIndex_firstEight (line : Nat) : hsIndex 1#2 line = line % 8 := rfl

theorem hsIndex_band (line : Nat) : hsIndex 2#2 line = line / 8 * 8 := by
  change line - line % 8 = line / 8 * 8
  omega

theorem hsIndex_perLine (line : Nat) : hsIndex 3#2 line = line := rfl

/-! ### HSFETCH (R175, R177, R178) -/

/-- R178: a scroll field keeps the low 10 bits of its word. -/
theorem hsField_toNat (w : Word) : (hsField w).toNat = w.toNat % 1024 := by
  rw [hsField, field_toNat, pow_zero, Nat.div_one]; rfl

/-- R175: on every line of the screen HSFETCH completes, returns the line's pair, and changes nothing else. -/
theorem exec_hsfetch_next {line : Byte} (hl : line.toNat < 224) (s : State) :
    exec (.hsfetch line) s =
      .next { s with ret := some (.scroll (hsFetchA s.ext line.toNat) (hsFetchB s.ext line.toNat)) } :=
  onLine_of_lt hl _

/-- Settles O27: HSFETCH returns the two fields of the slot `hsIndex` gives the line, each cut to its low 10 bits. -/
theorem hsfetchReturnsTheLinesPair : Obligations.HsfetchReturnsTheLinesPair := by
  intro line s hl
  refine ⟨hsIndex s.ext.regf.hsMode line.toNat, hsFetchA s.ext line.toNat, hsFetchB s.ext line.toNat,
    exec_hsfetch_next hl s, fun hmode => ?whole, fun hmode => ?firstEight, fun hmode => ?band, fun hmode => ?perLine,
    hsField_toNat _, hsField_toNat _⟩
  case whole => rw [hmode, hsIndex_whole]
  case firstEight => rw [hmode, hsIndex_firstEight]
  case band => rw [hmode, hsIndex_band]
  case perLine => rw [hmode, hsIndex_perLine]

end Sys2Proof.Machine
end

section
/-! SUPPORT. The sprite list traverser: what SPRTRAV answers with, a link in the numbers of R96, and the chain of a cycle. -/

namespace Sys2Proof.Machine

/-- R185: SPRTRAV completes in every state, and writes the chain only. -/
theorem exec_sprtrav_next (s : State) : exec .sprtrav s = .next (s.setChain (spriteChain s.ext)) := rfl

theorem exec_sprtrav_eq_next {s t : State} (h : exec .sprtrav s = .next t) : t = s.setChain (spriteChain s.ext) :=
  (Host.Outcome.next.inj ((exec_sprtrav_next s).symm.trans h)).symm

/-- R96, R105: the link is the low 7 bits of the entry's byte 3. -/
theorem sprLink_toNat (e : Snapshot) (i : BitVec 7) :
    (sprLink e i).toNat = (memRead1 e (e.regf.satBase.toNat + 8 * i.toNat + 3)).toNat % 128 := by
  rw [sprLink, field_toNat, pow_zero, Nat.div_one]; rfl

/-! ### The chain of a cycle (R187) -/

theorem chainFrom_one (e : Snapshot) (i : BitVec 7) : chainFrom e 1 i = [i] := by
  simp [chainFrom]

theorem chainFrom_succ_of_link {e : Snapshot} {i j : BitVec 7} (hlink : sprLink e i = j) (hj : j ≠ 0#7) (room : Nat) :
    chainFrom e (room + 1) i = i :: chainFrom e room j := by
  subst hlink
  rw [chainFrom, if_neg hj]

/-- R186, R187: only a link of 0 ends a chain before its room is used up. -/
theorem chainFrom_length_of_links_ne_zero {e : Snapshot} {room : Nat} {i : BitVec 7}
    (h : ∀ j ∈ chainFrom e room i, sprLink e j ≠ 0#7) : (chainFrom e room i).length = room := by
  refine (chainFrom_length_le e room i).antisymm (Nat.le_of_not_lt fun hlt => ?_)
  obtain ⟨a, ha, hz⟩ := chainFrom_last e room i hlt
  exact h a (List.mem_of_getLast? ha) hz

/-- R187: two entries that link to each other follow in turn until the room is used up. -/
theorem chainFrom_two_cycle {e : Snapshot} {a b : BitVec 7} (hab : sprLink e a = b) (hba : sprLink e b = a)
    (ha : a ≠ 0#7) (hb : b ≠ 0#7) (n : Nat) :
    chainFrom e (2 * n + 1) a = (List.replicate n [a, b]).flatten ++ [a] := by
  induction n with
  | zero => exact chainFrom_one e a
  | succ n ih =>
    calc chainFrom e (2 * n + 1 + 1 + 1) a
        = a :: b :: chainFrom e (2 * n + 1) a := by rw [chainFrom_succ_of_link hab hb, chainFrom_succ_of_link hba ha]
      _ = (List.replicate (n + 1) [a, b]).flatten ++ [a] := by rw [ih, List.replicate_succ]; rfl

/-- Settles O28: the chain is `spriteChain`, whose links `chainFrom_links` and `chainFrom_last` give. -/
theorem sprtravFollowsTheLinks : Obligations.SprtravFollowsTheLinks := by
  intro s
  refine ⟨s.setChain (spriteChain s.ext), exec_sprtrav_next s, rfl, spriteChain_head s.ext, spriteChain_length_le s.ext,
    fun k a b ha hb => ?link, fun hlt => ?last⟩
  case link =>
    obtain ⟨hlink, hne⟩ := chainFrom_links s.ext 64 0#7 ha hb
    exact ⟨by rw [hlink, sprLink_toNat], hne⟩
  case last =>
    obtain ⟨a, ha, hz⟩ := chainFrom_last s.ext 64 0#7 hlt
    exact ⟨a, ha, by rw [← sprLink_toNat, hz]; rfl⟩

/-- Settles O29: a chain without a link of 0 uses up its room of 64, and after index 0 the spec's cycle has room for 63. -/
theorem cyclesStopAtSixtyFour : Obligations.CyclesStopAtSixtyFour := by
  refine ⟨fun s t h hne => ?bound, fun s h0 h5 h2 => ⟨_, exec_sprtrav_next s, ?cycle⟩⟩
  case bound =>
    obtain rfl := exec_sprtrav_eq_next h
    exact chainFrom_length_of_links_ne_zero hne
  case cycle =>
    calc chainFrom s.ext 64 0#7
        = 0#7 :: chainFrom s.ext (2 * 31 + 1) 5#7 := chainFrom_succ_of_link h0 (by decide) 63
      _ = 0#7 :: ((List.replicate 31 [5#7, 2#7]).flatten ++ [5#7]) := by
        rw [chainFrom_two_cycle h5 h2 (by decide) (by decide)]

end Sys2Proof.Machine
end

section
/-! SUPPORT. The sprite pattern rasterizer: the six fields of an entry and the cell columns of a sprite in numbers, and the
draw plan without its loop. -/

namespace Sys2Proof.Machine

open Sys2Proof.Claims Sys2Proof.Picture

/-! ### SPRPLAN (R198 to R202) -/

/-- `planOf` from a moment inside the pass on: `room` more sprites may be planned, those before asked for `used` cell
columns, and `v` are the visible ones to come. -/
def planRest (e : Snapshot) (room used : Nat) (v : List (BitVec 7)) : List PlanEntry :=
  ((List.range (min room v.length)).filter (fun k => decide (used + demandBefore e v k < 32))).map fun k =>
    { index := v.getD k 0, cells := min (demand (sprFields e (v.getD k 0))) (32 - (used + demandBefore e v k)) }

theorem planOf_eq_planRest (e : Snapshot) (line : Nat) (chain : List (BitVec 7)) :
    planOf e line chain = planRest e 16 0 (visibleChain e line chain) := by
  simp only [planOf, planRest, Nat.zero_add]

theorem demandBefore_cons_succ (e : Snapshot) (i : BitVec 7) (v : List (BitVec 7)) (k : Nat) :
    demandBefore e (i :: v) (k + 1) = demand (sprFields e i) + demandBefore e v k := rfl

theorem planRest_nil (e : Snapshot) (room used : Nat) : planRest e room used [] = [] := by
  rw [planRest, List.length_nil, Nat.min_zero]; rfl

/-- R202: nothing more is planned once 16 sprites are, or 32 cell columns are asked for. -/
theorem planRest_of_full (e : Snapshot) {room used : Nat} (h : room = 0 ∨ 32 ≤ used) (v : List (BitVec 7)) :
    planRest e room used v = [] := by
  rcases h with rfl | h
  · rw [planRest, Nat.zero_min]; rfl
  · have hnone (k : Nat) : ¬ used + demandBefore e v k < 32 := by omega
    simp [planRest, hnone]

/-- R199, R201: the next visible sprite is planned with what it asks for, as far as 32 columns allow. -/
theorem planRest_cons (e : Snapshot) (room : Nat) {used : Nat} (h : used < 32) (i : BitVec 7) (v : List (BitVec 7)) :
    planRest e (room + 1) used (i :: v) =
      { index := i, cells := min (demand (sprFields e i)) (32 - used) } ::
        planRest e room (used + demand (sprFields e i)) v := by
  have hfirst : used + demandBefore e (i :: v) 0 = used := rfl
  have hnext (k : Nat) : used + demandBefore e (i :: v) (k + 1) = used + demand (sprFields e i) + demandBefore e v k := by
    rw [demandBefore_cons_succ, Nat.add_assoc]
  rw [planRest, List.length_cons, Nat.add_min_add_right, List.range_succ_eq_map,
    List.filter_cons_of_pos (by simpa [hfirst] using h), List.map_cons, List.filter_map, List.map_map, planRest]
  simp only [Function.comp_def, hnext, hfirst, List.getD_cons_zero, List.getD_cons_succ, Nat.succ_eq_add_one]

theorem visibleChain_cons_of_visible {e : Snapshot} {line : Nat} {i : BitVec 7}
    (h : (sprFields e i).visible line = true) (rest : List (BitVec 7)) :
    visibleChain e line (i :: rest) = i :: visibleChain e line rest := List.filter_cons_of_pos h

theorem visibleChain_cons_of_not_visible {e : Snapshot} {line : Nat} {i : BitVec 7}
    (h : ¬ (sprFields e i).visible line = true) (rest : List (BitVec 7)) :
    visibleChain e line (i :: rest) = visibleChain e line rest := List.filter_cons_of_neg h

/-- R199 to R201: one visible sprite is counted, its pixels by the columns it asks for as far as 32 allow. -/
theorem PlanState.add_eq {p : PlanState} {used : Nat} (h : p.npix = 8 * used) (i : BitVec 7) (d : SprEntry) :
    p.add i d = { nspr := p.nspr + 1, npix := 8 * (used + min (demand d) (32 - used)),
                  plan := p.plan ++ [{ index := i, cells := min (demand d) (32 - used) }] } := by
  by_cases hs : d.inSides = true
  · have hdemand : demand d = d.sw := if_pos (SprEntry.inSides_iff.mp hs)
    have hroom : (256 - 8 * used) / 8 = 32 - used := by omega
    rw [PlanState.add, if_pos hs, h, emitCells_eq _ _ _ ⟨used, rfl⟩, hdemand, hroom, Nat.zero_add, Nat.mul_add]
  · have hdemand : demand d = 0 := if_neg (mt SprEntry.inSides_iff.mpr hs)
    rw [PlanState.add, if_neg hs, h, hdemand, Nat.zero_min]; rfl

/-- R198 to R202: the pass from a moment on, as long as neither limit is reached, adds what `planRest` says. -/
theorem planFrom_plan (e : Snapshot) (line : Nat) (chain : List (BitVec 7)) {p : PlanState} {used : Nat}
    (hspr : p.nspr < 16) (hused : used < 32) (hpix : p.npix = 8 * used) :
    (planFrom e line chain p).plan = p.plan ++ planRest e (16 - p.nspr) used (visibleChain e line chain) := by
  induction chain generalizing p used with
  | nil => exact (List.append_nil _).symm.trans (congrArg (p.plan ++ ·) (planRest_nil e _ _).symm)
  | cons i rest ih =>
    rw [planFrom]
    by_cases hv : (sprFields e i).visible line = true
    · have hroom : 16 - p.nspr = 16 - (p.nspr + 1) + 1 := by omega
      rw [if_pos hv, visibleChain_cons_of_visible hv, hroom, planRest_cons e _ hused, PlanState.add_eq hpix]
      by_cases hf : p.nspr + 1 = 16 ∨ 32 ≤ used + demand (sprFields e i)
      · rw [if_pos (PlanState.full_iff.mpr (by dsimp only; omega)), planRest_of_full e (by omega)]
      · rw [if_neg (mt PlanState.full_iff.mp (by dsimp only; omega)), ih (used := used + demand (sprFields e i))
          (by dsimp only; omega) (by omega) (by dsimp only; omega), List.append_assoc, List.singleton_append]
    · rw [if_neg hv, visibleChain_cons_of_not_visible hv, ih hspr hused hpix]

/-- R198: SPRPLAN leaves the plan of `planOf`. -/
theorem spritePlan_plan (e : Snapshot) (line : Nat) (chain : List (BitVec 7)) :
    (spritePlan e line chain).plan = planOf e line chain := by
  rw [spritePlan, planFrom_plan e line chain (used := 0) (by decide) (by decide) rfl, planOf_eq_planRest]; rfl

/-- Settles O31: the plan is `planOf` by `planFrom_plan`, and `PlanState.Ok` gives the counters and the planned sprites. -/
theorem sprplanStopsExactlyAtTheLimits : Obligations.SprplanStopsExactlyAtTheLimits := by
  intro line s hl
  have hok := spritePlan_ok s.ext line.toNat s.work.chain
  refine ⟨s.planned line.toNat, onLine_of_lt hl _, rfl, spritePlan_plan _ _ _, hok.length.symm, hok.pixels,
    fun q hq => ?_⟩
  obtain ⟨hvisible, -, hsides⟩ := hok.entries q hq
  exact ⟨SprEntry.visible_iff.mp hvisible, fun hcells => SprEntry.inSides_iff.mp (hsides hcells)⟩

/-! ### SPRDRAW (R204) -/

/-- Settles O33: in the buffer the planned sprites show `spritesAt`, and SPRDRAW writes the line buffer only. -/
theorem sprdrawDrawsTheTailFirst : Obligations.SprdrawDrawsTheTailFirst := by
  intro line s hl hinside
  change ∃ t, execSprdraw line s = .next t ∧ _
  rw [execSprdraw, onLine_of_lt hl]
  exact (spriteDraw_shows s.ext line.toNat s.work.plan hinside s.work.lb).onLb

/-! ### SPRDECODE (R195, R96) -/

/-- R63: the two bytes of a word. -/
theorem memRead2_toNat (e : Snapshot) (a : Nat) :
    (memRead2 e a).toNat = 256 * (memRead1 e a).toNat + (memRead1 e (a + 1)).toNat :=
  append_toNat (memRead1 e a) (memRead1 e (a + 1))

/-- R101: a biased position, from the two bytes of its field. -/
theorem biased_memRead2 (e : Snapshot) (a : Nat) :
    biased (memRead2 e a) =
      (((memRead1 e a).toNat % 4 * 256 + (memRead1 e (a + 1)).toNat : Nat) : Int) - 128 := by
  have hlow := (memRead1 e (a + 1)).isLt
  rw [biased, field_toNat, memRead2_toNat, Config.sprBias]
  omega

/-- R100: a size code of a byte, in cells. -/
theorem sprCells_field (b : Byte) (start : Nat) : sprCells (field b start 2) = b.toNat / 2 ^ start % 4 + 1 := by
  rw [sprCells, field_toNat]; rfl

/-- Settles O30: each field of `sprFields` in the bytes it is read from. -/
theorem sprdecodeReturnsTheSixFields : Obligations.SprdecodeReturnsTheSixFields := by
  intro i s
  refine ⟨sprFields s.ext i, rfl, biased_memRead2 _ _, ?sh, ?sw, sprLink_toNat s.ext i, ?ref, biased_memRead2 _ _⟩
  case sh => exact (sprCells_field _ _).trans (congrArg (· % 4 + 1) (Nat.div_one _))
  case sw => exact sprCells_field _ _
  case ref => exact (memRead2_toNat _ _).trans (by rw [Nat.mul_comm]; rfl)

/-! ### Cell columns (R196, R197, R204 to R207) -/

/-- R91: a flag of an entry is set when its bit is 1. -/
theorem flag_eq_one_iff (w : Word) (bit : Nat) : field w bit 1 = 1#1 ↔ w.toNat / 2 ^ bit % 2 = 1 := by
  rw [← BitVec.toNat_inj, field_toNat]; rfl

/-- R204: the flips, the palette row and the priority of a cell column are those of the sprite's reference. -/
theorem cellEntry_fields (d : SprEntry) (line p : Nat) :
    (cellEntry d line p).hflip.toNat = d.ref.toNat / 2048 % 2 ∧ (cellEntry d line p).vflip.toNat = d.ref.toNat / 4096 % 2 ∧
      (cellEntry d line p).palrow.toNat = d.ref.toNat / 8192 % 4 ∧
      (cellEntry d line p).prio.toNat = d.ref.toNat / 32768 := by
  have hprio : d.ref.toNat / 32768 < 2 := by have := d.ref.isLt; omega
  exact ⟨field_toNat _ _ _, field_toNat _ _ _, field_toNat _ _ _, (field_toNat _ _ _).trans (Nat.mod_eq_of_lt hprio)⟩

/-- R206, R207: the pattern column that screen cell column `p` shows. -/
def patternColumn (d : SprEntry) (p : Nat) : Nat := if d.ref.toNat / 2048 % 2 = 1 then d.sw - 1 - p else p

/-- R197: the cell row of the pattern that is shown `dy` lines below the sprite's top. -/
def patternCellRow (d : SprEntry) (dy : Nat) : Nat := if d.ref.toNat / 4096 % 2 = 1 then d.sh - 1 - dy / 8 else dy / 8

section
variable {d : SprEntry} {line dy : Nat} (hdy : (dy : Int) = (line : Int) - d.y)
include hdy

theorem cellRow_eq (hlt : dy < 8 * d.sh) : cellRow d line = patternCellRow d dy := by
  have hflip : (NtEntry.ofWord d.ref).vflip = 1#1 ↔ d.ref.toNat / 4096 % 2 = 1 := flag_eq_one_iff d.ref 12
  simp only [cellRow, patternCellRow, hflip, ← hdy]
  split <;> omega

/-- R205, R207: on a line of the sprite the tile is that of the pattern column and row, stored column after column. -/
theorem cellTile_toNat (hlt : dy < 8 * d.sh) {p : Nat} (hp : p < d.sw) :
    (cellTile d line p).toNat =
      (d.ref.toNat % 2048 + d.sh * patternColumn d p + patternCellRow d dy) % 2048 := by
  have hflip : (NtEntry.ofWord d.ref).hflip = 1#1 ↔ d.ref.toNat / 2048 % 2 = 1 := flag_eq_one_iff d.ref 11
  have htile : (NtEntry.ofWord d.ref).tile.toNat = d.ref.toNat % 2048 :=
    (field_toNat _ _ _).trans (by rw [pow_zero, Nat.div_one]; rfl)
  have hofInt (n : Nat) : (BitVec.ofInt 11 (n : Int)).toNat = n % 2048 := by
    rw [BitVec.ofInt_natCast, BitVec.toNat_ofNat]
  rw [← hofInt]
  simp only [cellTile, patternColumn, hflip, htile, cellRow_eq hdy hlt]
  split
  · have hmirror : ((d.sw - 1 - p : Nat) : Int) = (d.sw : Int) - 1 - p := by omega
    push_cast [hmirror]
    congr 2; ring
  · push_cast
    congr 2; ring

/-- R197: the row inside the cell is never mirrored. -/
theorem cellSubrow_toNat : (cellSubrow d line).toNat = dy % 8 := by
  have hmod : ((dy : Int) % 8) = ((dy % 8 : Nat) : Int) := by omega
  rw [cellSubrow, ← hdy, hmod, BitVec.ofInt_natCast, BitVec.toNat_ofNat]
  omega

end

/-- Settles O34: with `dy` the lines below the sprite's top, the tile is `cellTile_toNat` and the sub-row `dy` modulo 8. -/
theorem cellColumnsTakeColumnMajorTiles : Obligations.CellColumnsTakeColumnMajorTiles := by
  intro d line p
  refine ⟨⟨rfl, cellEntry_fields d line p⟩, fun htop hbottom hp => ?_⟩
  have hdy : (((line : Int) - d.y).toNat : Int) = (line : Int) - d.y := by omega
  exact ⟨patternColumn d p, patternCellRow d _, _, hdy, rfl, rfl, cellTile_toNat hdy (by omega) hp, cellSubrow_toNat hdy⟩

end Sys2Proof.Machine
end

section
/-! SUPPORT. The ten stages, one by one: what each does to the state, to which stage it goes, and that the three drawing
stages are the operations they call. -/

namespace Sys2Proof.Machine

open Sys2Proof.Claims Sys2Proof.Safety

/-- Settles O5: the fetch finds the code of the stage and the latched line. -/
theorem stageRunsItsOperation : Obligations.StageRunsItsOperation := fun _ _ hst hcall hinputs =>
  StandsAt.step_eq ⟨hst, hcall, hinputs⟩

/-! ### The two fills (R218, R220) -/

/-- Settles O35: a filled buffer holds the cleared cell everywhere. -/
theorem clearBlanksEveryCell : Obligations.ClearBlanksEveryCell := fun s =>
  ⟨s.cleared, rfl, ⟨rfl, fun _ => rfl⟩, fun _ hlo hhi => LineBuf.cell_fill clearedCell ⟨hlo, hhi⟩⟩

/-- Settles O37: a filled buffer holds the backdrop cell everywhere, made of the entry `PalRead` finds. -/
theorem backdropFillsEveryCell : Obligations.BackdropFillsEveryCell := fun s =>
  ⟨s.backdropped, rfl, ⟨rfl, fun _ => rfl⟩, palRead s.ext s.ext.regf.backdrop, palRead_get s.ext s.ext.regf.backdrop,
    fun _ hlo hhi => LineBuf.cell_fill (backdropCell s.ext) ⟨hlo, hhi⟩⟩

/-! ### The gates (R219, R221) -/

theorem State.dispGated_stage_of_disabled {s : State} (h : s.ext.regf.dispDisable = 1#1) :
    s.dispGated.stage = some .done := congrArg some (if_pos h)

theorem State.dispGated_stage_of_enabled {s : State} (h : s.ext.regf.dispDisable ≠ 1#1) :
    s.dispGated.stage = some .backdrop := congrArg some (if_neg h)

theorem State.planeGated_stage_of_disabled {s : State} (h : s.ext.regf.planeEn = 0#1) :
    s.planeGated.stage = some .done := congrArg some (if_pos h)

theorem State.planeGated_stage_of_enabled {s : State} (h : s.ext.regf.planeEn ≠ 0#1) :
    s.planeGated.stage = some .configCheck := congrArg some (if_neg h)

/-- Settles O36, by the two values of each gate's bit. -/
theorem gatesMoveTheStageOnly : Obligations.GatesMoveTheStageOnly := by
  intro s
  have hmoves {st st' : Option Stage} (h : st = st') :
      (Host.Outcome.next { s with stage := st } : Host.Outcome State Fault Refusal) = .next { s with stage := st' } := by rw [h]
  exact ⟨fun hd => hmoves (State.dispGated_stage_of_disabled hd),
    fun hd => hmoves (State.dispGated_stage_of_enabled (by rw [hd]; decide)),
    fun hp => hmoves (State.planeGated_stage_of_disabled hp),
    fun hp => hmoves (State.planeGated_stage_of_enabled (by rw [hp]; decide))⟩

/-! ### CONFIGCHECK and DONE, which end a render (R222, R227) -/

/-- R13, R246: the end of a render leaves the stores and the model's own inputs. -/
theorem renderEnded_finish (s : State) (r : Response) : RenderEnded s (s.finish r) :=
  ⟨rfl, rfl, fun _ => rfl, rfl, rfl, rfl⟩

theorem State.configChecked_of_fault {s : State} {c : Cause} (h : configFault s.ext.regf = some c) :
    s.configChecked = s.raise c := by rw [State.configChecked, h]

/-- R222, R246: the fault found is the response, without a row, and ends the render. -/
theorem exec_configcheck_of_fault {s : State} {c : Cause} (h : configFault s.ext.regf = some c) :
    ∃ t r, exec .configcheck s = .next t ∧ RenderEnded s t ∧ t.response = some r ∧
      r.status = (Response.fault c).status ∧ r.cause = (Response.fault c).cause ∧ ∀ row, r ≠ .row row :=
  ⟨s.raise c, .fault c, congrArg Host.Outcome.next (State.configChecked_of_fault h), renderEnded_finish s _, rfl, rfl, rfl,
    fun _ hrow => by cases hrow⟩

/-- Settles O38: each clause says which cause `configFault` finds first. -/
theorem configCheckRaisesTheFirstFault : Obligations.ConfigCheckRaisesTheFirstFault := by
  intro s
  refine ⟨fun hi => ?interlace, fun hi hv => ?column, fun hi hv hw => ?width, fun hi hv hw hh => ?height,
    fun hi hv hw hh => ?none⟩
  case interlace => exact exec_configcheck_of_fault (c := .interlace) (by simp [configFault, hi])
  case column => exact exec_configcheck_of_fault (c := .columnScroll) (by simp [configFault, hi, hv])
  case width => exact exec_configcheck_of_fault (c := .widthCode) (by simp [configFault, hi, hv, hw])
  case height => exact exec_configcheck_of_fault (c := .heightCode) (by simp [configFault, hi, hv, hw, hh])
  case none =>
    exact congrArg Host.Outcome.next (State.configChecked_of_none (configFault_eq_none.mpr ⟨hi, hv, hw, hh⟩))

/-- Settles O43: the response is the row of the buffer, whose pixel `k` is cell `k` without its priority. -/
theorem doneDeliversTheVisibleCells : Obligations.DoneDeliversTheVisibleCells := by
  intro s
  refine ⟨s.delivered, rfl, renderEnded_finish s _, fun r hr => ?_, s.work.lb.row, rfl, fun k hk => s.work.lb.row_pixel hk⟩
  obtain rfl : .row s.work.lb.row = r := by injection hr
  exact ⟨rfl, rfl⟩

/-! ### SCROLLFETCH (R223) -/

/-- Settles O39: the stage latches what HSFETCH returns and what `VsRead` finds. -/
theorem scrollFetchLatchesFourValues : Obligations.ScrollFetchLatchesFourValues := fun line s hl =>
  ⟨hsFetchA s.ext line.toNat, hsFetchB s.ext line.toNat, exec_hsfetch_next hl s, onLine_of_lt hl _⟩

/-! ### The drawing stages (R224 to R226) -/

/-- The stage that runs a line-buffer operation answers what the operation alone does, at the stage it moves to. -/
theorem onLb_atStage {s t : State} {o : Host.Outcome LineBuf Fault Refusal} (h : onLb s o = .next t) (st : Stage) :
    onLb (s.atStage st) o = .next { t with stage := some st } := by
  obtain ⟨lb, rfl, rfl⟩ := onLb_eq_next.mp h
  rfl

/-- R155: PLANE with two sizes that exist, on the line buffer of a state. -/
theorem onLb_planeRun_next {s : State} (hw : s.ext.regf.planeWCode ≠ 2#2) (hh : s.ext.regf.planeHCode ≠ 2#2)
    (line base : Nat) (hscroll vscroll : BitVec 10) :
    ∃ t, onLb s (planeRun s.ext line base hscroll.toNat vscroll.toNat s.work.lb) = .next t := by
  obtain ⟨t, ht, -⟩ := (planeRun_shows_of_sizes hw hh line base hscroll vscroll s.work.lb).onLb
  exact ⟨t, ht⟩

/-- Settles O40: on a line of the screen PLANE and PLANEB run the same plane on the line buffer. -/
theorem planeBStageDrawsPlaneB : Obligations.PlaneBStageDrawsPlaneB := by
  intro line s hl hw hh
  obtain ⟨t, ht⟩ := onLb_planeRun_next hw hh line.toNat s.ext.regf.baseB.toNat s.work.hsB s.work.vsB
  exact ⟨t, (onLine_of_lt hl _).trans ht, (onLine_of_lt hl _).trans (onLb_atStage ht .winOrPlaneA)⟩

theorem State.winOrPlaneAStage_of_window {s : State} {line : Nat} (h : windowSelected s.ext.regf line = true) :
    s.winOrPlaneAStage line = onLb (s.atStage .sprites) (windowRun s.ext line s.work.lb) :=
  congrArg (onLb (s.atStage .sprites)) (if_pos h)

theorem State.winOrPlaneAStage_of_plane {s : State} {line : Nat} (h : ¬ windowSelected s.ext.regf line = true) :
    s.winOrPlaneAStage line = onLb (s.atStage .sprites)
      (planeRun s.ext line s.ext.regf.baseA.toNat s.work.hsA.toNat s.work.vsA.toNat s.work.lb) :=
  congrArg (onLb (s.atStage .sprites)) (if_neg h)

/-- Settles O41: `windowSelected` is the statement's test, and each side of it is the operation named there. -/
theorem windowReplacesPlaneAOnWholeLines : Obligations.WindowReplacesPlaneAOnWholeLines := by
  intro line s hl
  have hwinsel : exec (.winsel line) s = s.winOrPlaneAStage line.toNat := onLine_of_lt hl _
  refine ⟨fun hwin => ?_, fun hwin hw hh => ?_⟩
  · obtain ⟨t, ht, -⟩ := (windowRun_shows s.ext line.toNat s.work.lb).onLb
    refine ⟨t, (onLine_of_lt hl _).trans ht, ?_⟩
    rw [hwinsel, State.winOrPlaneAStage_of_window (windowSelected_iff.mpr hwin), onLb_atStage ht]
  · obtain ⟨t, ht⟩ := onLb_planeRun_next hw hh line.toNat s.ext.regf.baseA.toNat s.work.hsA s.work.vsA
    refine ⟨t, (onLine_of_lt hl _).trans ht, ?_⟩
    rw [hwinsel, State.winOrPlaneAStage_of_plane (mt windowSelected_iff.mp hwin), onLb_atStage ht]

/-- Settles O42: the stage fills chain and plan as the first two operations do, and a plan that SPRPLAN makes lies in the
buffer, so the third completes. -/
theorem spritesStageIsItsThreeOperations : Obligations.SpritesStageIsItsThreeOperations := by
  intro line s hl
  obtain ⟨t, ht, -⟩ := (spriteDraw_shows s.ext line.toNat _
    (spritePlan_inside s.ext line.toNat (spriteChain s.ext)) s.work.lb).onLb
      (s := (s.setChain (spriteChain s.ext)).planned line.toNat)
  have hext : t.ext = ((s.setChain (spriteChain s.ext)).planned line.toNat).ext := onLb_next_ext ht
  exact ⟨_, _, t, rfl, onLine_of_lt hl _, (onLine_of_lt hl _).trans ht,
    (onLine_of_lt hl _).trans (onLb_atStage ht .done), hext⟩

end Sys2Proof.Machine
end

section
/-! SUPPORT. What a request gets: the row or the fault of the render, and how the block serves one after reset, after a
fault, and not at all while a render is in progress. -/

namespace Sys2Proof.Machine

open Sys2Proof.Claims Sys2Proof.Picture Sys2Proof.Safety

/-! ### The answer (R215, R219, R221, R228) -/

theorem rowIs_of_response {t : State} {e : Snapshot} {line : Nat} (h : t.response = some (.row (renderedRow e line))) :
    RowIs t (rowPixel e line) := ⟨renderedRow e line, h, fun _ hk => renderedRow_pixel e line hk⟩

/-- R227: where the configuration raises no fault, the request is answered with the row of `rowPixel`. -/
theorem exec_render_row {s : State} {line : Byte} (hs : s.stage = none) (hl : line.toNat < 224)
    (hf : renderFault s.ext = none) :
    ∃ t, exec (.render line) s = .next t ∧ RenderEnded s t ∧ RowIs t (rowPixel s.ext line.toNat) :=
  ⟨_, exec_render_eq hs hl, renderEnded_finish s _, rowIs_of_response (congrArg some (renderResponse_of_row hf _))⟩

/-- Settles O45: the response is `renderResponse`, the fault of the configuration or the row of the layers. -/
theorem renderAnswersWithTheLayeredPicture : Obligations.RenderAnswersWithTheLayeredPicture := by
  intro line s hs hl
  cases hf : renderFault s.ext with
  | some c =>
    exact ⟨_, exec_render_eq hs hl, renderEnded_finish s _, congrArg some (renderResponse_of_fault hf line.toNat)⟩
  | none => exact exec_render_row hs hl hf

/-- Settles O47: the display's gate comes before every fault, and the cleared cell is black. -/
theorem disabledDisplayIsBlack : Obligations.DisabledDisplayIsBlack := by
  intro line s hs hl hd
  obtain ⟨t, ht, -, hrow⟩ := exec_render_row hs hl (if_pos (.inl hd))
  have hpixel : rowPixel s.ext line.toNat = fun _ => clearedCell.pixel := funext fun k => if_pos hd
  exact ⟨t, ht, hpixel ▸ hrow⟩

/-- Settles O48: the planes' gate comes before every fault, and past the display's gate every cell is the backdrop's. -/
theorem disabledPlanesShowTheBackdrop : Obligations.DisabledPlanesShowTheBackdrop := by
  intro line s hs hl hd hp
  obtain ⟨t, ht, -, hrow⟩ := exec_render_row hs hl (if_pos (.inr hp))
  have hpixel : rowPixel s.ext line.toNat = fun _ => (backdropCell s.ext).pixel :=
    funext fun k => by simp [rowPixel, hd, hp]
  exact ⟨t, palRead s.ext s.ext.regf.backdrop, ht, palRead_get s.ext _, hpixel ▸ hrow⟩

/-! ### Faults (R241, R244, R246, R247) -/

theorem status_fault_ne_zero (c : Cause) : (Response.fault c).status ≠ 0 := by cases c <;> decide

theorem renderResponse_status_ne_zero {e : Snapshot} {line : Nat} :
    (renderResponse e line).status ≠ 0 ↔ renderFault e ≠ none := by
  cases hf : renderFault e with
  | some c => rw [renderResponse_of_fault hf]; simp [status_fault_ne_zero]
  | none => rw [renderResponse_of_row hf]; simp [Response.status]

theorem bit_eq_one_iff (b : BitVec 1) : b = 1#1 ↔ ¬ b = 0#1 := by revert b; decide

/-- R222: a fault exactly when one of the four conditions holds. -/
theorem configFault_ne_none {f : RegFields} : configFault f ≠ none ↔
    f.interlace ≠ 0#2 ∨ f.vsColumn = 1#1 ∨ f.planeWCode = 2#2 ∨ f.planeHCode = 2#2 := by
  rw [Ne, configFault_eq_none, bit_eq_one_iff]
  tauto

/-- R219, R221: only past both gates does the configuration raise a fault. -/
theorem renderFault_ne_none {e : Snapshot} : renderFault e ≠ none ↔
    e.regf.dispDisable = 0#1 ∧ e.regf.planeEn = 1#1 ∧ configFault e.regf ≠ none := by
  have hd := bit_eq_one_iff e.regf.dispDisable
  have hp := bit_eq_one_iff e.regf.planeEn
  by_cases hgate : e.regf.dispDisable = 1#1 ∨ e.regf.planeEn = 0#1
  · have hnone : renderFault e = none := if_pos hgate
    tauto
  · have hfault : renderFault e = configFault e.regf := if_neg hgate
    rw [hfault]
    tauto

/-- Settles O49: status 0 is a row, and `renderFault` is the four conditions behind the two gates. -/
theorem renderFaultsExactlyOnTheFourConditions : Obligations.RenderFaultsExactlyOnTheFourConditions := by
  intro line s hs hl
  refine ⟨_, _, exec_render_eq hs hl, rfl, ?_⟩
  rw [renderResponse_status_ne_zero, renderFault_ne_none, configFault_ne_none]

/-- Settles O50: a render ends with the stores as they were, and they alone decide the next answer. -/
theorem faultsLeaveNothingBehind : Obligations.FaultsLeaveNothingBehind := by
  intro line next s t c ht _ hnext
  obtain ⟨hs, -, rfl⟩ := exec_render_eq_next.mp ht
  exact ⟨renderEnded_finish s _, exec_render_same_response rfl hs hnext rfl⟩

/-- Settles O51: the response is a function of the stores and the line. -/
theorem responsesDependOnTheSnapshotAlone : Obligations.ResponsesDependOnTheSnapshotAlone :=
  fun line _ _ hs hs' hext hl => exec_render_same_response hs hs' hl (congrArg (renderResponse · line.toNat) hext)

/-! ### Reset and the duties of the outside (R270, R275, R276) -/

/-- Settles O57: the block is idle after reset, over empty video memory. -/
theorem resetHasTheInvariant : Obligations.ResetHasTheInvariant := inv_of_idle rfl rfl rfl

/-- Settles O9: an idle block serves the request that is pending. -/
theorem resetIsIdleAndServes : Obligations.ResetIsIdleAndServes := by
  refine ⟨rfl, rfl, rfl, fun line hl => ?_⟩
  have hrequest := stepRunsTheDecodedOperation.2 { State.reset with inputs := [.request line] } line [] rfl rfl
  exact ⟨_, hrequest.trans (exec_render_eq rfl hl), rfl⟩

theorem busy_of_stage {s : State} (h : s.stage.isSome = true) : s.busy = true := by simp [State.busy, h]

/-- Settles O8: the fetch on a busy block finds the broken duty, and RENDER asks for an idle block itself. -/
theorem brokenDutiesAreRefused : Obligations.BrokenDutiesAreRefused := by
  intro s hst
  have hbusy := busy_of_stage hst
  refine ⟨fun w rest hi => ?_, fun line rest hi => ?_, fun line => if_pos hst⟩
  · simp only [step, fetch, hbusy, hi]
  · simp only [step, fetch, hbusy, hi]

end Sys2Proof.Machine
end

section
/-! SUPPORT. A render in progress, step by step: ten steps from Clear are the atomic render, and from every stage that has
what it needs the steps go on to the end. -/

namespace Sys2Proof.Machine

open Sys2Proof.Claims Sys2Proof.Safety

/-! ### Steps to spare (R256) -/

theorem steps_idle {s : State} (hb : s.busy = false) (hi : s.inputs = []) (n : Nat) : steps n s = .next s := by
  induction n with
  | zero => rfl
  | succ n ih => rw [steps_succ_of_step (step_idle hb hi), ih]

/-- A step that ends the render leaves an idle block, which the steps to spare do not change. -/
theorem StandsAt.steps_of_ended {s t : State} {st : Stage} (h : StandsAt s st) (hstep : step s = .next t)
    (hend : RenderEnded s t) (n : Nat) : steps (n + 1) s = .next t := by
  obtain ⟨hst, -, -, hcall, -, hinputs⟩ := hend
  rw [steps_succ_of_step hstep]
  exact steps_idle (busy_eq_false.mpr ⟨hst, hcall.trans h.call⟩) (hinputs.trans h.inputs) n

/-- R227: at Done the next step delivers. -/
theorem StandsAt.steps_done {s : State} (h : StandsAt s .done) (n : Nat) : steps (n + 1) s = .next s.delivered :=
  h.steps_of_ended h.step_eq (renderEnded_finish s _) n

/-- A stage that moves on leaves the other steps to the stage after it. -/
theorem StandsAt.steps_moved {s t : State} {st : Stage} (h : StandsAt s st)
    (hexec : exec (stageOp s.work.line st) s = .next t) (n : Nat) : steps (n + 1) s = steps n t :=
  steps_succ_of_step (h.step_eq.trans hexec) n

/-! ### The atomic render and its stages (R215, R217) -/

theorem andThen_congr {α β : Type} {o : Host.Outcome α Fault Refusal} {f g : α → Host.Outcome β Fault Refusal}
    (h : ∀ a, o = .next a → f a = g a) : andThen o f = andThen o g := by
  cases o with
  | next a => exact h a rfl
  | fault r | refused r => rfl

/-- A drawing stage that completes moved to its next stage and kept the rest. -/
theorem onLb_atStage_moves {s t : State} {next : Stage} {o : Host.Outcome LineBuf Fault Refusal}
    (h : onLb (s.atStage next) o = .next t) : Keeps s t ∧ t.stage = some next := by
  obtain ⟨lb, -, rfl⟩ := onLb_eq_next.mp h
  exact ⟨⟨rfl, rfl, rfl, rfl, rfl, rfl, rfl⟩, rfl⟩

theorem spritesStage_moves {s t : State} {line : Nat} (h : s.spritesStage line = .next t) :
    Keeps s t ∧ t.stage = some .done := by
  obtain ⟨hk, hst⟩ := onLb_atStage_moves h
  have hplanned : Keeps s ((s.setChain (spriteChain s.ext)).planned line) := ⟨rfl, rfl, rfl, rfl, rfl, rfl, rfl⟩
  exact ⟨hplanned.trans hk, hst⟩

/-- The first of several steps, at a stage with a line operand, where `k` is what the other steps do from the stage after
it. -/
theorem StandsAt.steps_succ {s : State} {st next : Stage} {line : Byte} {o : Host.Outcome State Fault Refusal} {n : Nat}
    {k : State → Host.Outcome State Fault Refusal} (h : StandsAt s st) (hline : s.work.line = line) (hl : line.toNat < 224)
    (hop : exec (stageOp line st) s = onLine line o) (hmoves : ∀ t, o = .next t → Keeps s t ∧ t.stage = some next)
    (hrest : ∀ t, StandsAt t next → t.work.line = line → steps n t = k t) : steps (n + 1) s = andThen o k := by
  rw [steps, h.step_eq, hline, hop, onLine_of_lt hl]
  refine andThen_congr fun t ht => ?_
  obtain ⟨hk, hst⟩ := hmoves t ht
  exact hrest t (h.moved hk hst) (hk.line.trans hline)

/-- R223 to R227: five steps from ScrollFetch are the layers and the delivery. -/
theorem StandsAt.steps_layers {s : State} {line : Byte} (h : StandsAt s .scrollFetch) (hline : s.work.line = line)
    (hl : line.toNat < 224) : steps 5 s = renderLayers line.toNat s := by
  have hfetch : step s = .next (s.scrollFetched line.toNat) := by rw [h.step_eq, hline]; exact onLine_of_lt hl _
  have hfetched : StandsAt (s.scrollFetched line.toNat) .planeB := ⟨rfl, h.call, h.inputs⟩
  rw [steps_succ_of_step hfetch]
  refine hfetched.steps_succ hline hl rfl (fun _ => onLb_atStage_moves) fun t ht htl => ?_
  refine ht.steps_succ htl hl rfl (fun _ => onLb_atStage_moves) fun u hu hul => ?_
  exact hu.steps_succ hul hl rfl (fun _ => spritesStage_moves) fun v hv _ => hv.steps_done 0

/-- R222: from ConfigCheck on, the fault or the layers. -/
theorem StandsAt.steps_configCheck {s : State} {line : Byte} (h : StandsAt s .configCheck) (hline : s.work.line = line)
    (hl : line.toNat < 224) :
    steps 6 s = match configFault s.ext.regf with
      | some c => .next (s.raise c)
      | none => renderLayers line.toNat (s.atStage .scrollFetch) := by
  have hstep : step s = .next s.configChecked := h.step_eq
  cases hc : configFault s.ext.regf with
  | some c =>
    rw [State.configChecked_of_fault hc] at hstep
    exact h.steps_of_ended hstep (renderEnded_finish s _) 5
  | none =>
    rw [State.configChecked_of_none hc] at hstep
    have hpassed : StandsAt (s.atStage .scrollFetch) .scrollFetch := ⟨rfl, h.call, h.inputs⟩
    rw [steps_succ_of_step hstep]
    exact hpassed.steps_layers hline hl

/-- R217: ten steps from Clear are the stages of the whole render, in every branch of the two gates. -/
theorem StandsAt.steps_clear {s : State} {line : Byte} (h : StandsAt (s.enterRender line) .clear) (hl : line.toNat < 224) :
    steps 10 (s.enterRender line) = renderLine line s := by
  -- `a` and `b` stand for the states after the two fills, of which only the stage and the line matter
  rw [h.steps_moved (t := (s.enterRender line).cleared) rfl, renderLine]
  have hline : (s.enterRender line).cleared.work.line = line := rfl
  have hcleared : StandsAt (s.enterRender line).cleared .dispGate := ⟨rfl, h.call, h.inputs⟩
  generalize (s.enterRender line).cleared = a at hline hcleared ⊢
  rw [hcleared.steps_moved (t := a.dispGated) rfl]
  by_cases hd : a.ext.regf.dispDisable = 1#1
  · have hdone : StandsAt a.dispGated .done :=
      ⟨State.dispGated_stage_of_disabled hd, hcleared.call, hcleared.inputs⟩
    exact (hdone.steps_done 7).trans (if_pos hd).symm
  refine Eq.trans ?_ (if_neg hd).symm
  have hgated : StandsAt a.dispGated .backdrop :=
    ⟨State.dispGated_stage_of_enabled hd, hcleared.call, hcleared.inputs⟩
  rw [hgated.steps_moved (t := a.dispGated.backdropped) rfl]
  replace hline : a.dispGated.backdropped.work.line = line := hline
  have hfilled : StandsAt a.dispGated.backdropped .planeGate := ⟨rfl, hgated.call, hgated.inputs⟩
  generalize a.dispGated.backdropped = b at hline hfilled ⊢
  rw [hfilled.steps_moved (t := b.planeGated) rfl]
  by_cases hp : b.ext.regf.planeEn = 0#1
  · have hdone : StandsAt b.planeGated .done := ⟨State.planeGated_stage_of_disabled hp, hfilled.call, hfilled.inputs⟩
    exact (hdone.steps_done 5).trans (if_pos hp).symm
  refine Eq.trans ?_ (if_neg hp).symm
  have hpassed : StandsAt b.planeGated .configCheck :=
    ⟨State.planeGated_stage_of_enabled hp, hfilled.call, hfilled.inputs⟩
  exact hpassed.steps_configCheck hline hl

/-- R276: on an idle block RENDER of a line of the screen is the whole render. -/
theorem exec_render_eq_renderLine {s : State} {line : Byte} (hs : s.stage = none) (hl : line.toNat < 224) :
    exec (.render line) s = renderLine line s := by
  change execRender line s = _
  rw [execRender, if_neg (by simp [hs]), onLine_of_lt hl]

/-- Settles O46, by the branches of the atomic render. -/
theorem renderIsItsStagesInTurn : Obligations.RenderIsItsStagesInTurn := by
  intro line s hs hcall hinputs hl
  have hclear : StandsAt (s.enterRender line) .clear := ⟨rfl, hcall, hinputs⟩
  exact (hclear.steps_clear hl).trans (exec_render_eq_renderLine hs hl).symm

/-! ### A render in progress ends (R215, R217, R52) -/

/-- What the step of stage `st` leaves: an ended render with its response, or the render at a later stage. -/
inductive StageProgress (s t : State) (st : Stage) : Prop
  | ended (hend : RenderEnded s t) (hresp : t.response.isSome = true)
  | moved (next : Stage) (hk : Keeps s t) (hst : t.stage = some next) (hlater : st.code.toNat < next.code.toNat)

theorem StageShows.progress {o : Host.Outcome State Fault Refusal} {s : State} {st next : Stage}
    {f : Int → PixelCell → PixelCell} (h : StageShows o s next f) (hlater : st.code.toNat < next.code.toNat) :
    ∃ t, o = .next t ∧ StageProgress s t st := by
  obtain ⟨t, ht, hk, hst, -⟩ := h
  exact ⟨t, ht, .moved next hk hst hlater⟩

/-- Every stage that has what it needs completes and makes progress. -/
theorem exec_stageOp_progress {s : State} {st : Stage} (hok : stageOk s st) :
    ∃ t, exec (stageOp s.work.line st) s = .next t ∧ StageProgress s t st := by
  obtain ⟨hline, -, hconf⟩ := hok
  cases st with
  | clear => exact ⟨s.cleared, rfl, .moved .dispGate ⟨rfl, rfl, rfl, rfl, rfl, rfl, rfl⟩ rfl (by decide)⟩
  | dispGate =>
    have hk : Keeps s s.dispGated := ⟨rfl, rfl, rfl, rfl, rfl, rfl, rfl⟩
    by_cases hd : s.ext.regf.dispDisable = 1#1
    · exact ⟨s.dispGated, rfl, .moved .done hk (State.dispGated_stage_of_disabled hd) (by decide)⟩
    · exact ⟨s.dispGated, rfl, .moved .backdrop hk (State.dispGated_stage_of_enabled hd) (by decide)⟩
  | backdrop => exact ⟨s.backdropped, rfl, .moved .planeGate ⟨rfl, rfl, rfl, rfl, rfl, rfl, rfl⟩ rfl (by decide)⟩
  | planeGate =>
    have hk : Keeps s s.planeGated := ⟨rfl, rfl, rfl, rfl, rfl, rfl, rfl⟩
    by_cases hp : s.ext.regf.planeEn = 0#1
    · exact ⟨s.planeGated, rfl, .moved .done hk (State.planeGated_stage_of_disabled hp) (by decide)⟩
    · exact ⟨s.planeGated, rfl, .moved .configCheck hk (State.planeGated_stage_of_enabled hp) (by decide)⟩
  | configCheck =>
    cases hc : configFault s.ext.regf with
    | some c =>
      exact ⟨s.raise c, congrArg Host.Outcome.next (State.configChecked_of_fault hc), .ended (renderEnded_finish s _) rfl⟩
    | none =>
      exact ⟨s.atStage .scrollFetch, congrArg Host.Outcome.next (State.configChecked_of_none hc),
        .moved .scrollFetch ⟨rfl, rfl, rfl, rfl, rfl, rfl, rfl⟩ rfl (by decide)⟩
  | scrollFetch =>
    exact ⟨s.scrollFetched s.work.line.toNat, onLine_of_lt hline _,
      .moved .planeB ⟨rfl, rfl, rfl, rfl, rfl, rfl, rfl⟩ rfl (by decide)⟩
  | planeB =>
    obtain ⟨-, -, hc⟩ := hconf
    simpa only [stageOp, exec, execPlaneb, onLine_of_lt hline] using (planeBStage_shows hc _).progress (by decide)
  | winOrPlaneA =>
    obtain ⟨-, -, hc⟩ := hconf
    simpa only [stageOp, exec, execWinsel, onLine_of_lt hline] using (winOrPlaneAStage_shows hc _).progress (by decide)
  | sprites =>
    simpa only [stageOp, exec, execSprites, onLine_of_lt hline] using (spritesStage_shows s _).progress (by decide)
  | done => exact ⟨s.delivered, rfl, .ended (renderEnded_finish s _) rfl⟩

theorem renderEnded_of_keeps {s t u : State} (hk : Keeps s t) (h : RenderEnded t u) : RenderEnded s u := by
  obtain ⟨hst, hext, hmem, hcall, hret, hinputs⟩ := h
  exact ⟨hst, hext.trans hk.ext, fun a => (hmem a).trans (congrArg (memRead1 · a) hk.ext), hcall.trans hk.call,
    hret.trans hk.ret, hinputs.trans hk.inputs⟩

theorem Stage.code_lt (st : Stage) : st.code.toNat < 10 := by cases st <;> decide

/-- A render ends in as many steps as there are stages from its own on. -/
theorem StandsAt.steps_end {s : State} {st : Stage} (h : StandsAt s st) (hok : stageOk s st) {n : Nat}
    (hn : 10 ≤ n + st.code.toNat) : ∃ t, steps n s = .next t ∧ RenderEnded s t ∧ t.response.isSome = true := by
  induction n generalizing s st with
  | zero => exact absurd st.code_lt (by omega)
  | succ n ih =>
    obtain ⟨t, hexec, hprogress⟩ := exec_stageOp_progress hok
    have hstep : step s = .next t := h.step_eq.trans hexec
    cases hprogress with
    | ended hend hresp => exact ⟨t, h.steps_of_ended hstep hend n, hend, hresp⟩
    | moved next hk hst hlater =>
      have hok' : stageOk t next := (stageOp_handsOn hok hexec).stage next hst
      obtain ⟨u, hsteps, hend, hresp⟩ := ih (h.moved hk hst) hok' (by omega)
      exact ⟨u, (steps_succ_of_step hstep n).trans hsteps, renderEnded_of_keeps hk hend, hresp⟩

/-- Settles O58: every stage completes and goes on to a later one or to the end, and there are ten. -/
theorem rendersInProgressEnd : Obligations.RendersInProgressEnd := by
  rintro s st ⟨-, -, hstageOk⟩ hst hcall hinputs
  have hstands : StandsAt s st := ⟨hst, hcall, hinputs⟩
  have hok := hstageOk st hst
  obtain ⟨t, hexec, -⟩ := exec_stageOp_progress hok
  obtain ⟨u, hsteps, ⟨hend, hext, -⟩, hresp⟩ := hstands.steps_end hok (n := 10) (by omega)
  exact ⟨⟨t, hstands.step_eq.trans hexec⟩, u, hsteps, hend, hresp, hext⟩

end Sys2Proof.Machine
end
